-- ==== Sys2Proof/Word.lean ====
section
/-! DEFINITION. The units of data: the byte (R8), the byte sequence `Seq` (R11) and the 9-bit symbol of `enc_in` (R71). -/

namespace Sys2Proof

/-- An unsigned integer `0..255`; bit 7 is the most significant (R8, R11). -/
abbrev Byte := BitVec 8

/-- `Seq`: a finite ordered list of bytes, index 0 first on the stream (R11, R40). -/
abbrev Bytes := List Byte

/-- One symbol `{end, b[7:0]}` of the port `enc_in`; bit 8 is `end` (R71, format P). -/
abbrev EncSymbol := BitVec 9

end Sys2Proof
end

