-- ==== Sys2Proof/Config.lean ====
section
/-! DEFINITION. What is fixed for a machine: the wire-format constants (R9) and the parameters the source leaves to
the implementation (R10). No free value is needed: the spec leaves no value of the machine undefined. -/

namespace Sys2Proof

/-- `DELIM`: the byte that ends a frame (R9, R64). -/
def delim : Byte := 0x00#8

/-- `MAX_CHUNK`: the largest number of data bytes in one block (R9). -/
def maxChunk : Nat := 254

/-- `CODE_FULL`: the length-prefix that suppresses the implied zero (R9, R62). -/
def codeFull : Byte := 0xFF#8

/-- `CODE_EMPTY`: the length-prefix of an empty block (R9). -/
def codeEmpty : Byte := 0x01#8

/-- The named parameters of R10; `none` is the value `unbounded`.
They are constant during a run and stand in `State` so that statements hold for every value (log entry 5). -/
structure Config where
  /-- `DBUF_CAP`: the largest number of bytes `DBUF` can hold. -/
  dbufCap    : Option Nat
  /-- `MAX_PAYLOAD`: the largest payload length `ENC` accepts. -/
  maxPayload : Option Nat
  /-- `MAX_CHUNK_IN`: the largest chunk length one `DEC` accepts. -/
  maxChunkIn : Option Nat
  /-- `N_DEC`: the number of decoder instances; `none` makes every natural number an instance (log entry 6). -/
  nDec       : Option Nat
deriving DecidableEq, Repr

/-- The default of every parameter, under which every rule is exactly the source's behaviour (R10). -/
def Config.unbounded : Config :=
  { dbufCap := none, maxPayload := none, maxChunkIn := none, nDec := none }

end Sys2Proof
end

