-- ==== Sys2Proof/Syntax.lean ====
section
/-! DEFINITION. The operations of spec/opcode_table.json, one constructor a row, and the transfers by which the host
selects them: an operation is chosen by the port used, not by an opcode (R70). -/

namespace Sys2Proof

/-- The ports of R110. -/
inductive Port where
  | encIn
  | encOut
  | decIn  (i : Nat)
  | decOut (i : Nat)
  | rst    (i : Nat)
deriving DecidableEq, Repr

/-- The formats of opcode_table.json (R70 to R72). -/
inductive Format where
  /-- A whole operation, no bit pattern. -/
  | op
  /-- Encoder input symbol, 9 bits. -/
  | p
  /-- Decoder input symbol as the frame-boundary detector classifies it, 8 bits. -/
  | s
  /-- A byte met at a code position of a span, 8 bits. -/
  | c
  /-- A byte met at a data position of a span, 8 bits. -/
  | b
deriving DecidableEq, Repr

/-- What the host puts on an input port in one operation or one beat. This is the encoded form of an instruction:
the port and the format select the operation (R70, R71), the payload, chunk or symbol is its operand. -/
inductive Transfer where
  /-- A whole payload on `enc_in`. -/
  | encWhole  (payload : Bytes)
  /-- One 9-bit symbol on `enc_in`. -/
  | encSymbol (w : EncSymbol)
  /-- A whole feed chunk on `dec_in` of instance `i`. -/
  | decWhole  (i : Nat) (chunk : Bytes)
  /-- One byte on `dec_in` of instance `i`, read in format S. -/
  | decSymbol (i : Nat) (b : Byte)
  /-- One byte on `dec_in` of instance `i`, read in format C. -/
  | spanCode  (i : Nat) (b : Byte)
  /-- One byte on `dec_in` of instance `i`, read in format B. -/
  | spanData  (i : Nat) (b : Byte)
  /-- Assertion of the input `rst` of instance `i`. -/
  | rstAssert (i : Nat)
deriving DecidableEq, Repr

/-- The port a transfer uses (R70, R110). -/
def Transfer.port : Transfer → Port
  | .encWhole _ => .encIn
  | .encSymbol _ => .encIn
  | .decWhole i _ => .decIn i
  | .decSymbol i _ => .decIn i
  | .spanCode i _ => .decIn i
  | .spanData i _ => .decIn i
  | .rstAssert i => .rst i

/-- The format a transfer is written in. -/
def Transfer.format : Transfer → Format
  | .encWhole _ => .op
  | .encSymbol _ => .p
  | .decWhole _ _ => .op
  | .decSymbol _ _ => .s
  | .spanCode _ _ => .c
  | .spanData _ _ => .b
  | .rstAssert _ => .op

/-- One constructor per row of spec/opcode_table.json. `i` is the addressed decoder instance (`DEC@i`, R73). -/
inductive Instr where
  /-- `ENC(P)`, R85. -/
  | enc          (payload : Bytes)
  /-- `DEC@i(c)`, R100. -/
  | dec          (i : Nat) (chunk : Bytes)
  /-- `RST@i()`, R104. -/
  | rst          (i : Nat)
  /-- `ENC.END()`, R113. -/
  | encEnd
  /-- `ENC.PUSH(0x00)`, R112. -/
  | encPushZ
  /-- `ENC.PUSH(b)` with `b` non-zero, R112. -/
  | encPushNZ    (b : Byte)
  /-- `DEC.BYTE(0x00)`, R118. -/
  | decByteDelim (i : Nat)
  /-- `DEC.BYTE(b)` with `b` non-zero, R118. -/
  | decByteBody  (i : Nat) (b : Byte)
  /-- Class `TERM`: the delimiter met by the per-frame machine, R62 and R64. -/
  | term         (i : Nat)
  /-- Class `LEN1`: the code byte `0x01`, R62. -/
  | len1         (i : Nat)
  /-- Class `LEN255`: the code byte `0xFF`, R62. -/
  | len255       (i : Nat)
  /-- Class `LENN`: a code byte `0x02..0xFE`, R62. -/
  | lenN         (i : Nat) (code : Byte)
  /-- Class `DATA`: a non-zero data byte, R63. -/
  | data         (i : Nat) (b : Byte)
deriving DecidableEq, Repr

/-- The port by whose use the operation is selected (R70). -/
def Instr.port : Instr → Port
  | .enc _ => .encIn
  | .dec i _ => .decIn i
  | .rst i => .rst i
  | .encEnd => .encIn
  | .encPushZ => .encIn
  | .encPushNZ _ => .encIn
  | .decByteDelim i => .decIn i
  | .decByteBody i _ => .decIn i
  | .term i => .decIn i
  | .len1 i => .decIn i
  | .len255 i => .decIn i
  | .lenN i _ => .decIn i
  | .data i _ => .decIn i

/-- The format column of opcode_table.json. -/
def Instr.format : Instr → Format
  | .enc _ => .op
  | .dec _ _ => .op
  | .rst _ => .op
  | .encEnd => .p
  | .encPushZ => .p
  | .encPushNZ _ => .p
  | .decByteDelim _ => .s
  | .decByteBody _ _ => .s
  | .term _ => .c
  | .len1 _ => .c
  | .len255 _ => .c
  | .lenN _ _ => .c
  | .data _ _ => .b

end Sys2Proof
end

