-- ==== Sys2Proof/WellFormed.lean ====
section
/-! DEFINITION. The operand constraints of spec/opcode_table.json: the operand values a row is reached with. -/

namespace Sys2Proof

/-- The constraint of each row (R62, R71): a symbol class stands only for the values its row catches. -/
def Instr.wellFormed : Instr → Bool
  | .enc _ => true
  | .dec _ _ => true
  | .rst _ => true
  | .encEnd => true
  | .encPushZ => true
  | .encPushNZ b => decide (b ≠ delim)
  | .decByteDelim _ => true
  | .decByteBody _ b => decide (b ≠ delim)
  | .term _ => true
  | .len1 _ => true
  | .len255 _ => true
  | .lenN _ code => decide (2 ≤ code.toNat ∧ code.toNat ≤ 254)
  | .data _ b => decide (b ≠ delim)

end Sys2Proof
end

