-- ==== Sys2Proof/Decode.lean ====
section
/-! DEFINITION. From a transfer on an input port to the operation it selects, and back. Decoding is total: no code
value, symbol or chunk is illegal or reserved (R67). Within a format the rows of spec/opcode_table.json are tried in
the order listed and the first with `word &&& mask = match` holds (R72). -/

namespace Sys2Proof

/-- Format P, rows `ENC.END` (match 0x100, mask 0x100), `ENC.PUSH.Z` (0x000, 0x1FF), `ENC.PUSH.NZ` (0x000, 0x000). -/
def decodeEncSymbol (w : EncSymbol) : Instr :=
  if w &&& 0x100#9 = 0x100#9 then .encEnd
  else if w &&& 0x1FF#9 = 0x000#9 then .encPushZ
  else .encPushNZ (w.setWidth 8)

/-- Format S, rows `DEC.BYTE.DELIM` (match 0x00, mask 0xFF), `DEC.BYTE.BODY` (0x00, 0x00). -/
def decodeDecSymbol (i : Nat) (b : Byte) : Instr :=
  if b &&& 0xFF#8 = 0x00#8 then .decByteDelim i else .decByteBody i b

/-- Format C, rows `TERM` (match 0x00, mask 0xFF), `LEN1` (0x01, 0xFF), `LEN255` (0xFF, 0xFF), `LENN` (0x00, 0x00). -/
def decodeSpanCode (i : Nat) (b : Byte) : Instr :=
  if b &&& 0xFF#8 = 0x00#8 then .term i
  else if b &&& 0xFF#8 = 0x01#8 then .len1 i
  else if b &&& 0xFF#8 = 0xFF#8 then .len255 i
  else .lenN i b

/-- Format B, row `DATA`. A zero at a data position is the delimiter (R71, R67 case b; log entry 15). -/
def decodeSpanData (i : Nat) (b : Byte) : Instr :=
  if b = delim then .decByteDelim i else .data i b

/-- The operation a transfer selects (R70, R71). -/
def decode : Transfer → Instr
  | .encWhole P => .enc P
  | .encSymbol w => decodeEncSymbol w
  | .decWhole i c => .dec i c
  | .decSymbol i b => decodeDecSymbol i b
  | .spanCode i b => decodeSpanCode i b
  | .spanData i b => decodeSpanData i b
  | .rstAssert i => .rst i

/-- The format P symbol `{end, b[7:0]}` (R71). -/
def encSymbolOf (endOfPayload : Bool) (b : Byte) : EncSymbol :=
  (BitVec.ofBool endOfPayload) ++ b

/-- The transfer that selects an operation, written from the port column (R70) and the symbol formats (R71);
the ignored bits of `ENC.END` are sent as zero. -/
def encode : Instr → Transfer
  | .enc P => .encWhole P
  | .dec i c => .decWhole i c
  | .rst i => .rstAssert i
  | .encEnd => .encSymbol (encSymbolOf true 0x00#8)
  | .encPushZ => .encSymbol (encSymbolOf false 0x00#8)
  | .encPushNZ b => .encSymbol (encSymbolOf false b)
  | .decByteDelim i => .decSymbol i 0x00#8
  | .decByteBody i b => .decSymbol i b
  | .term i => .spanCode i 0x00#8
  | .len1 i => .spanCode i 0x01#8
  | .len255 i => .spanCode i 0xFF#8
  | .lenN i code => .spanCode i code
  | .data i b => .spanData i b

/-- The beats of one payload on `enc_in`: one `ENC.PUSH` a byte, then `ENC.END` (R116). -/
def encBeats (P : Bytes) : List Transfer :=
  P.map (fun b => .encSymbol (encSymbolOf false b)) ++ [.encSymbol (encSymbolOf true 0x00#8)]

/-- The beats of a chunk on `dec_in` of instance `i` (R123). -/
def decBeats (i : Nat) (c : Bytes) : List Transfer := c.map (.decSymbol i)

/-- Why a table word is no symbol of a port. -/
inductive DecodeError where
  /-- The word has a bit set above the symbol's 8 or 9 bits. Safe: no port carries such a word. -/
  | bitsAboveSymbol
  /-- No port has symbols of this width. Safe: no port carries such a word. -/
  | noSymbolOfThisWidth
deriving DecidableEq, Repr

/-- A table word as the transfer that carries it: 8 bits are a byte of format C on `dec_in` of instance 0, 9 bits (16
in whole bytes) a symbol of format P on `enc_in`. Formats S, C and B share their 8-bit words and the word does not
say which is meant (log entry 14). -/
def transferOfTableWord (nbits w : Nat) : Except DecodeError Transfer :=
  if nbits = 8 then
    if w < 256 then .ok (.spanCode 0 (BitVec.ofNat 8 w)) else .error .bitsAboveSymbol
  else if nbits = 9 ∨ nbits = 16 then
    if w < 512 then .ok (.encSymbol (BitVec.ofNat 9 w)) else .error .bitsAboveSymbol
  else .error .noSymbolOfThisWidth

/-- What the decoder reads from a table word, `none` where no port carries the word. -/
def decodeTableWord (nbits w : Nat) : Option Instr :=
  match transferOfTableWord nbits w with
  | .ok t => some (decode t)
  | .error _ => none

end Sys2Proof
end

