-- ==== Sys2Proof/Machine/State.lean ====
section
/-! DEFINITION. The state of the block: per decoder instance the buffer `DBUF` (R20) and the register form that
stands for it (R119), the encoder's byte-serial registers (R111), the parameters (R10), and the model's record of what
crosses the ports (log entries 1 and 10). The block has no other state (R22 to R30). -/

namespace Sys2Proof.Machine

/-- The register form of a decoder instance (R119). -/
structure Regs where
  /-- The most recent length-prefix of the current span, 0 when the span has no byte yet. -/
  code : Byte
  /-- Data bytes of the current block still to come, `0..254`. -/
  rem  : Nat
  /-- The payload accumulated so far for the current span, not yet delivered. -/
  out  : Bytes
deriving DecidableEq, Repr

/-- The reset values of `code`, `rem`, `out` (R124). -/
def Regs.reset : Regs := { code := 0x00#8, rem := 0, out := [] }

/-- One decoder instance. `dbuf` and `regs` are the two forms of the same state (R118, R120), kept together
(log entry 3). -/
structure Decoder where
  /-- The decoder buffer `DBUF`, oldest byte first (R20). -/
  dbuf      : Bytes
  /-- The register form (R119). -/
  regs      : Regs
  /-- The payloads that have appeared on `dec_out`, oldest first (R122). The model's own record. -/
  delivered : List Bytes
deriving DecidableEq, Repr

/-- A decoder instance after construction or `RST` (R31, R105, R124). -/
def Decoder.reset : Decoder := { dbuf := [], regs := Regs.reset, delivered := [] }

/-- The encoder between beats (R111). -/
structure Encoder where
  /-- The bytes of the current segment not yet emitted. -/
  run     : Bytes
  /-- True when a `0xFF` block of the current segment has been emitted. -/
  flushed : Bool
  /-- The bytes that have appeared on `enc_out`, in order (R114). The model's own record. -/
  sent    : Bytes
deriving DecidableEq, Repr

/-- The encoder at power-on (R115, R124). -/
def Encoder.reset : Encoder := { run := [], flushed := false, sent := [] }

/-- The result value of an operation, handed to the host. The model's own record (log entry 10). -/
inductive Result where
  /-- No operation has completed yet. -/
  | idle
  /-- `ENC` returned this frame (R85). -/
  | frame   (F : Bytes)
  /-- A beat on `enc_in` emitted these bytes (R112, R113). -/
  | emitted (bytes : Bytes)
  /-- `DEC` or a beat on `dec_in` returned `none` or `some` of a non-empty list (R97). -/
  | decoded (r : Option (List Bytes))
  /-- `RST` completed; it has no result value (R104). -/
  | done
deriving DecidableEq, Repr

/-- The whole machine. -/
structure State where
  config   : Config
  encoder  : Encoder
  /-- The decoder instances that are not at their reset value, by rising index (log entry 6). -/
  decoders : List (Nat × Decoder)
  result   : Result
  /-- What the host has put on the input ports and the block has not taken, oldest first (log entry 1). -/
  pending  : List Transfer
deriving DecidableEq, Repr

/-- No operation raises, traps or faults (R150): there is no fault. -/
inductive Fault where
deriving DecidableEq, Repr

/-- An operation that has no step in the model. -/
inductive Refusal where
  /-- An arm of `exec` without a meaning. No arm raises it. Safe. -/
  | notModelled (mnemonic : String)
  /-- Raised by `ENC` when the payload is longer than a finite `MAX_PAYLOAD` (R10, R85). Safe. -/
  | payloadTooLong
  /-- Raised by `DEC` and the beats on `dec_in` when the chunk is longer than a finite `MAX_CHUNK_IN` (R10). Safe. -/
  | chunkTooLong
  /-- Raised by `DEC` and the beats on `dec_in` when the append would exceed a finite `DBUF_CAP` (R91). Safe. -/
  | bufferFull
  /-- Raised by an operation addressed to an instance index not below a finite `N_DEC` (R10, R32). Safe. -/
  | absentInstance
deriving DecidableEq, Repr

/-- The machine right after reset: `RST` has been issued to every instance (R31, R170, R171), the encoder is idle
(R115), every parameter has its default (R10), and the host has issued nothing yet. -/
def State.reset : State :=
  { config := Config.unbounded
    encoder := Encoder.reset
    decoders := []
    result := .idle
    pending := [] }

end Sys2Proof.Machine
end

