-- ==== Sys2Proof/Machine/Flags.lean ====
section
/-! DEFINITION. The block has no flags and no condition codes (R24). What stands here instead are the conditions its
rules test, all unsigned comparisons on naturals (R69), each written once. -/

namespace Sys2Proof.Machine

/-- Does an implied zero follow a block with this code when another block comes after it (R62, R94 step 3)? -/
def impliesZero (code : Byte) : Bool := decide (code ≠ codeFull)

/-- Is `n` within a parameter of R10? Every `n` is within an unbounded one. -/
def withinBound : Option Nat → Nat → Bool
  | none, _ => true
  | some bound, n => decide (n ≤ bound)

/-- Does the machine have an instance with this index (`N_DEC`, R10)? -/
def hasInstance : Option Nat → Nat → Bool
  | none, _ => true
  | some count, i => decide (i < count)

/-- A segment is offending when its length is a positive multiple of 254 (R132); the condition counts only where a
zero byte of the payload follows the segment. -/
def offending (S : Bytes) : Bool := decide (S ≠ [] ∧ S.length % maxChunk = 0)

end Sys2Proof.Machine
end

