-- ==== Sys2Proof/Machine/EncodeFrame.lean ====
section
/-! DEFINITION. The encoder's algorithm, step by step (R81 to R84), and the notions of 44_properties.md that are
defined from it (R132, R133). -/

namespace Sys2Proof.Machine

/-- Step 1: split the payload at every zero byte, keeping empty pieces (R81). -/
def segments : Bytes → List Bytes
  | [] => [[]]
  | b :: rest =>
    if b = delim then [] :: segments rest
    else match segments rest with
      | S :: Ss => (b :: S) :: Ss
      | [] => [[b]]

/-- `chunks254` with a bound on the number of cuts; `|S|` cuts are always enough. -/
def chunksWithin : Nat → Bytes → List Bytes
  | 0, S => [S]
  | n + 1, S =>
    if S.length ≤ maxChunk then [S] else S.take maxChunk :: chunksWithin n (S.drop maxChunk)

/-- Step 3a: cut a non-empty segment greedily into chunks of at most 254 bytes (R82). -/
def chunks254 (S : Bytes) : List Bytes := chunksWithin S.length S

/-- One block: the length-prefix `|c| + 1` and the chunk verbatim (R68, R83). -/
def blockOf (c : Bytes) : Bytes := BitVec.ofNat 8 (c.length + 1) :: c

/-- Steps 2 and 3b: the blocks of one segment (R83). -/
def encseg : Bytes → Bytes
  | [] => [codeEmpty]
  | S@(_ :: _) => ((chunks254 S).map blockOf).flatten

/-- Step 4: the frame of a payload, the spec's `encode` (R84). -/
def encodeFrame (P : Bytes) : Bytes := ((segments P).map encseg).flatten ++ [delim]

/-- The blocks a segment is given: `1` if empty, otherwise `ceil(|S| / 254)` (R75). -/
def nblocks (S : Bytes) : Nat := if S = [] then 1 else (S.length + 253) / 254

/-- `RT(P)`: no segment that a zero byte follows is offending (R132). -/
def roundTrips (P : Bytes) : Bool := (segments P).dropLast.all (fun S => !offending S)

/-- The pieces put back together with the zero after each offending one left out (R133). -/
def joinLossy : List Bytes → Bytes
  | [] => []
  | [S] => S
  | S :: rest => S ++ (if offending S then [] else [delim]) ++ joinLossy rest

/-- `P'`: the payload with the zero that follows each offending segment deleted (R133). -/
def lossy (P : Bytes) : Bytes := joinLossy (segments P)

end Sys2Proof.Machine
end

