-- ==== Sys2Proof/Machine/DecodeFrame.lean ====
section
/-! DEFINITION. One frame span decoded (R94), the other forms the spec gives of the same function (R95, R96, R106), and
the cutting of a stream into spans (R98). A span is `N ++ [0x00]` with `N` zero-free (R92). -/

namespace Sys2Proof.Machine

/-- The spec's labels for the three causes of a malformed span (R151). No state records one (R153). -/
inductive Malformed where
  | zeroLen
  | short
  | zeroInData
deriving DecidableEq, Repr

/-- How the per-frame machine leaves a span. -/
inductive SpanOutcome where
  | complete  (payload : Bytes)
  | malformed (cause : Malformed)
deriving DecidableEq, Repr

/-- The two readings of "fewer than length bytes remain in the remaining slice" (R95, C5). -/
inductive Reading where
  /-- The slice still counts the length-prefix. -/
  | a
  /-- The slice is counted after the length-prefix is consumed. -/
  | b
deriving DecidableEq, Repr

/-- The length test of R94 step 1 on the working copy, its length counted with the length-prefix. -/
def tooShort : Reading → Nat → Byte → Bool
  | .a, n, L => decide (n < L.toNat)
  | .b, n, L => decide (n - 1 < L.toNat)

/-- The loop of R94 over the working copy and `output`. The first argument bounds the passes; each pass consumes at
least one byte, so the span's length is enough (R101). An empty working copy does not arise on a span (R94, last
sentence) and is answered as too short. -/
def spanLoop (rd : Reading) : Nat → Bytes → Bytes → SpanOutcome
  | 0, _, _ => .malformed .short
  | _ + 1, [], _ => .malformed .short
  | n + 1, L :: W, output =>
    if L = delim then .malformed .zeroLen
    else if tooShort rd (W.length + 1) L then .malformed .short
    else if (W.take (L.toNat - 1)).contains delim then .malformed .zeroInData
    else
      match W.drop (L.toNat - 1) with
      | [] => .malformed .short
      | next :: W' =>
        if next = delim then .complete (output ++ W.take (L.toNat - 1))
        else spanLoop rd n (next :: W')
          (output ++ W.take (L.toNat - 1) ++ if impliesZero L then [delim] else [])

/-- The span's outcome with its cause, in the given reading. -/
def spanOutcome (rd : Reading) (F : Bytes) : SpanOutcome := spanLoop rd F.length F []

/-- The payload of a complete span; a malformed one discards `output` (R94, R152). -/
def SpanOutcome.payload : SpanOutcome → Option Bytes
  | .complete P => some P
  | .malformed _ => none

/-- `decode_frame(F)` as R94 writes it (reading A, the spec's choice in C5). -/
def decodeFrame (F : Bytes) : Option Bytes := (spanOutcome .a F).payload

/-- The loop of the index form (R95): `p` is the position of the current length-prefix. -/
def indexLoop (F : Bytes) : Nat → Nat → Bytes → Option Bytes
  | 0, _, _ => none
  | n + 1, p, output =>
    let L := F.getD p delim
    if L = delim then none
    else if p + L.toNat > F.length - 1 then none
    else
      let output := output ++ (F.drop (p + 1)).take (L.toNat - 1)
      if F.getD (p + L.toNat) delim = delim then some output
      else indexLoop F n (p + L.toNat) (output ++ if impliesZero L then [delim] else [])

/-- `decode_frame(F)` in the index form with one malformation test (R95). -/
def decodeFrameIndexed (F : Bytes) : Option Bytes := indexLoop F F.length 0 []

/-- The states of the per-frame machine (R96). -/
inductive Control where
  | len
  | data
  | next
  | done
  | drop
deriving DecidableEq, Repr

/-- The per-frame machine between transitions (R96): its control state, the rest of the span, the current
length-prefix and the payload so far. -/
structure SpanMachine where
  control : Control
  work    : Bytes
  code    : Byte
  output  : Bytes
deriving DecidableEq, Repr

/-- One transition of the table of R96; the terminal states stay. A block fits when it ends before the delimiter,
which is the last byte of `work`. -/
def SpanMachine.advance (m : SpanMachine) : SpanMachine :=
  match m.control with
  | .len =>
    match m.work with
    | [] => { m with control := .drop }
    | L :: W =>
      if L = delim then { m with control := .drop }
      else if W.length < L.toNat then { m with control := .drop }
      else if L = codeEmpty then { m with control := .next, work := W, code := L }
      else { m with control := .data, work := W, code := L }
  | .data =>
    { m with
      control := .next
      output := m.output ++ m.work.take (m.code.toNat - 1)
      work := m.work.drop (m.code.toNat - 1) }
  | .next =>
    match m.work with
    | [] => { m with control := .drop }
    | x :: _ =>
      if x = delim then { m with control := .done }
      else { m with control := .len, output := m.output ++ if impliesZero m.code then [delim] else [] }
  | .done => m
  | .drop => m

/-- `n` transitions. -/
def SpanMachine.advanceN : Nat → SpanMachine → SpanMachine
  | 0, m => m
  | n + 1, m => SpanMachine.advanceN n m.advance

/-- The machine at the start of a span (R96). -/
def SpanMachine.start (F : Bytes) : SpanMachine :=
  { control := .len, work := F, code := 0x00#8, output := [] }

/-- What the machine returns in a terminal state; `none` in the others. -/
def SpanMachine.answer (m : SpanMachine) : Option (Option Bytes) :=
  match m.control with
  | .done => some (some m.output)
  | .drop => some none
  | .len => none
  | .data => none
  | .next => none

/-- The blocks along the chain of code positions of `N`, if the chain lands on its end (R65, R106). The first argument
bounds the number of blocks. -/
def blocksWithin : Nat → Bytes → Option (List (Byte × Bytes))
  | _, [] => some []
  | 0, _ :: _ => none
  | n + 1, L :: W =>
    if W.length < L.toNat - 1 then none
    else (blocksWithin n (W.drop (L.toNat - 1))).map ((L, W.take (L.toNat - 1)) :: ·)

/-- The blocks of a span body `N`, `none` when the chain of code positions jumps over its end. -/
def blocksOf (N : Bytes) : Option (List (Byte × Bytes)) := blocksWithin N.length N

/-- `D_0 ++ Z_0 ++ D_1 ++ ... ++ D_{n-1}` (R106). -/
def payloadOfBlocks : List (Byte × Bytes) → Bytes
  | [] => []
  | [(_, D)] => D
  | (L, D) :: rest => D ++ (if impliesZero L then [delim] else []) ++ payloadOfBlocks rest

/-- `frames(X)`: the spans of a stream in order (R98). -/
def frames (X : Bytes) : List Bytes := (segments X).dropLast.map (· ++ [delim])

/-- `residue(X)`: what follows the last zero byte (R98). -/
def residue (X : Bytes) : Bytes := (segments X).getLastD []

/-- The payloads of the well-formed spans of a stream, in order (R97, R98). -/
def payloadsIn (X : Bytes) : List Bytes := (frames X).filterMap decodeFrame

/-- The result of a decoder operation from its payload list: `none`, never `some` of an empty list (R97, D6). -/
def resultOf (res : List Bytes) : Option (List Bytes) := if res = [] then none else some res

/-- `payloads(r)` of 44_properties.md. -/
def payloadsOf (r : Option (List Bytes)) : List Bytes := r.getD []

/-- A payload as 9-bit symbols `eop, b[7:0]` on a physical `dec_out`, ended by a marker whose low bits the spec leaves
open (R122); no operation uses it. -/
def decOutSymbols (marker : Byte) (P : Bytes) : List (BitVec 9) :=
  P.map (fun b => 0#1 ++ b) ++ [1#1 ++ marker]

end Sys2Proof.Machine
end

