-- ==== Sys2Proof/Machine/Ops.lean ====
section
/-! DEFINITION. The named operations over the state: the bank of decoder instances, the buffer primitives (R12), the
drain of complete spans (R92, R93, R100), the register form (R120), the encoder's beats (R112, R113), and the recording
of what an operation hands to the host. No operation takes an exception: the block has none (R150, R156). -/

namespace Sys2Proof.Machine

/-- The decoder with index `i`; an index that is not listed is at its reset value. Indexes rise along the list. -/
def lookup (i : Nat) : List (Nat × Decoder) → Decoder
  | [] => Decoder.reset
  | (j, d) :: rest => if i < j then Decoder.reset else if i = j then d else lookup i rest

/-- The bank with the decoder of index `i` replaced, in canonical form: no entry equal to a reset decoder. -/
def store (i : Nat) (d : Decoder) : List (Nat × Decoder) → List (Nat × Decoder)
  | [] => if d = Decoder.reset then [] else [(i, d)]
  | (j, e) :: rest =>
    if i < j then
      if d = Decoder.reset then (j, e) :: rest else (i, d) :: (j, e) :: rest
    else if i = j then
      if d = Decoder.reset then rest.dropWhile (fun p => decide (p.1 ≤ i)) else (i, d) :: rest
    else (j, e) :: store i d rest

/-- The canonical form of the bank: indexes strictly rising, no entry equal to a reset decoder. -/
def bankWf : List (Nat × Decoder) → Bool
  | [] => true
  | (i, d) :: rest =>
    decide (d ≠ Decoder.reset) && rest.all (fun p => decide (i < p.1)) && bankWf rest

/-- `i -> DBUF_i` and the rest of instance `i` (R32). -/
def State.decoder (s : State) (i : Nat) : Decoder := lookup i s.decoders

/-- Replace instance `i`. -/
def State.setDecoder (s : State) (i : Nat) (d : Decoder) : State :=
  { s with decoders := store i d s.decoders }

/-- `BufAppend(c)` (R12, R91). -/
def Decoder.bufAppend (d : Decoder) (c : Bytes) : Decoder := { d with dbuf := d.dbuf ++ c }

/-- The least index of a zero byte. -/
def indexOfZero : Bytes → Option Nat
  | [] => none
  | b :: rest => if b = delim then some 0 else (indexOfZero rest).map (· + 1)

/-- `BufFindZero()` (R12, R92). -/
def Decoder.bufFindZero (d : Decoder) : Option Nat := indexOfZero d.dbuf

/-- `BufTakeFront(n)`: the front, and the decoder without it (R12, R93). -/
def Decoder.bufTakeFront (d : Decoder) (n : Nat) : Bytes × Decoder :=
  (d.dbuf.take n, { d with dbuf := d.dbuf.drop n })

/-- The loop of R100: cut at the first zero, decode the span, go on until no zero byte remains. The first argument
bounds the passes; each removes at least one byte, so the buffer's length is enough (R101). A malformed span is
removed and leaves nothing (R93, R152). -/
def drain : Nat → Decoder → List Bytes → Decoder × List Bytes
  | 0, d, res => (d, res)
  | n + 1, d, res =>
    match d.bufFindZero with
    | none => (d, res)
    | some i =>
      let taken := d.bufTakeFront (i + 1)
      match decodeFrame taken.1 with
      | some P => drain n taken.2 (res ++ [P])
      | none => drain n taken.2 res

/-- The non-delimiter part of R120, the `step` of R121. -/
def Regs.body (r : Regs) (b : Byte) : Regs :=
  if r.rem > 0 then { r with out := r.out ++ [b], rem := r.rem - 1 }
  else
    { code := b
      rem := b.toNat - 1
      out := if r.code ≠ 0x00#8 ∧ r.code ≠ codeFull then r.out ++ [delim] else r.out }

/-- The payload the registers hold when a delimiter arrives now: a block must just have ended (R120). -/
def Regs.payload (r : Regs) : Option Bytes :=
  if r.code ≠ 0x00#8 ∧ r.rem = 0 then some r.out else none

/-- One byte over the registers, and the payload it completes (R120). -/
def Regs.beat (r : Regs) (b : Byte) : Regs × Option Bytes :=
  if b = delim then (Regs.reset, r.payload) else (r.body b, none)

/-- The registers after a chunk. -/
def Regs.feed (r : Regs) (c : Bytes) : Regs := c.foldl (fun r b => (r.beat b).1) r

/-- The registers that represent a zero-free buffer content (R121). -/
def Regs.ofBuffer (N : Bytes) : Regs := N.foldl Regs.body Regs.reset

/-- `DEC(c)` on one instance: the buffer form computes the payload list (R100), the register form follows byte by byte
(R120), and the payloads appear on `dec_out` (R122). -/
def Decoder.feed (d : Decoder) (c : Bytes) : Decoder × List Bytes :=
  let appended := d.bufAppend c
  let drained := drain appended.dbuf.length appended []
  ({ drained.1 with regs := d.regs.feed c, delivered := d.delivered ++ drained.2 }, drained.2)

/-- One byte on one instance as the register form takes it (R120): the registers compute the payload, and the buffer
they stand for follows (R118). A byte has the role its value and its position give it (R65; log entry 4). -/
def Decoder.beat (d : Decoder) (b : Byte) : Decoder × List Bytes :=
  let r := d.regs.beat b
  ({ dbuf := if b = delim then [] else d.dbuf ++ [b]
     regs := r.1
     delivered := d.delivered ++ r.2.toList }, r.2.toList)

/-- `RST()` on one instance, in both forms; nothing appears on `dec_out` (R104, R124). -/
def Decoder.clear (d : Decoder) : Decoder := { d with dbuf := [], regs := Regs.reset }

/-- `close_segment()`: the bytes it emits and the registers it leaves (R112). -/
def Encoder.closeSegment (e : Encoder) : Bytes × Encoder :=
  (if e.run ≠ [] then blockOf e.run else if e.flushed then [] else [codeEmpty],
   { e with run := [], flushed := false })

/-- `ENC.PUSH(b)`: the bytes it emits and the registers it leaves (R112). -/
def Encoder.push (e : Encoder) (b : Byte) : Bytes × Encoder :=
  if b = delim then e.closeSegment
  else if (e.run ++ [b]).length = maxChunk then
    (codeFull :: (e.run ++ [b]), { e with run := [], flushed := true })
  else ([], { e with run := e.run ++ [b] })

/-- `ENC.END()`: the bytes it emits and the registers it leaves (R113). -/
def Encoder.finish (e : Encoder) : Bytes × Encoder :=
  (e.closeSegment.1 ++ [delim], e.closeSegment.2)

/-- Bytes appear on `enc_out` (R114). -/
def Encoder.emit (e : Encoder) (bytes : Bytes) : Encoder := { e with sent := e.sent ++ bytes }

/-- A beat on `enc_in` completes: the new registers, and the emitted bytes on `enc_out` and as the result. -/
def State.finishBeat (s : State) (r : Bytes × Encoder) : State :=
  { s with encoder := r.2.emit r.1, result := .emitted r.1 }

/-- `ENC` completes with a frame: on `enc_out` and as the result; the encoder's registers stay (R85). -/
def State.finishFrame (s : State) (F : Bytes) : State :=
  { s with encoder := s.encoder.emit F, result := .frame F }

/-- `RST` completes on instance `i` (R104). -/
def State.finishReset (s : State) (i : Nat) : State :=
  { s.setDecoder i (s.decoder i).clear with result := .done }

/-- A decoder operation completes on instance `i` with a payload list (R97). -/
def State.finishDecode (s : State) (i : Nat) (r : Decoder × List Bytes) : State :=
  { s.setDecoder i r.1 with result := .decoded (resultOf r.2) }

end Sys2Proof.Machine
end

