-- ==== Sys2Proof/Machine/Operands.lean ====
section
/-! DEFINITION. The operand forms of the operations. An operand is a value the operation carries: a payload, a chunk, a
byte, an instance index (R27, R32, R85, R100). With the default parameters every operand is accepted; beyond a finite
parameter the operation has no step (R10, R91). -/

namespace Sys2Proof.Machine

/-- Why `ENC` of a payload of `n` bytes has no step, if so (R10, R85). -/
def encRefusal (s : State) (n : Nat) : Option Refusal :=
  if withinBound s.config.maxPayload n then none else some .payloadTooLong

/-- Why an operation addressed to instance `i` has no step, if so (R10, R32). -/
def addressRefusal (s : State) (i : Nat) : Option Refusal :=
  if hasInstance s.config.nDec i then none else some .absentInstance

/-- Why feeding `n` bytes to instance `i` has no step, if so (R10, R91). -/
def feedRefusal (s : State) (i n : Nat) : Option Refusal :=
  if !hasInstance s.config.nDec i then some .absentInstance
  else if !withinBound s.config.maxChunkIn n then some .chunkTooLong
  else if !withinBound s.config.dbufCap ((s.decoder i).dbuf.length + n) then some .bufferFull
  else none

/-- The next state, unless the operands are refused. -/
def unlessRefused (r : Option Refusal) (t : State) : Host.Outcome State Fault Refusal :=
  match r with
  | some r => .refused r
  | none => .next t

/-- A chunk on `dec_in` of instance `i` taken through the buffer form (R100). -/
def feedChunk (i : Nat) (c : Bytes) (s : State) : Host.Outcome State Fault Refusal :=
  unlessRefused (feedRefusal s i c.length) (s.finishDecode i ((s.decoder i).feed c))

/-- One byte on `dec_in` of instance `i` taken through the register form (R120). -/
def feedByte (i : Nat) (b : Byte) (s : State) : Host.Outcome State Fault Refusal :=
  unlessRefused (feedRefusal s i 1) (s.finishDecode i ((s.decoder i).beat b))

end Sys2Proof.Machine
end

