-- ==== Sys2Proof/Machine/DecoderOps.lean ====
section
/-! DEFINITION. The meanings of the decoder's operations: `DEC` (R100), `RST` (R104) and `DEC.BYTE` (R118). -/

namespace Sys2Proof.Machine

/-- `DEC@i(c)` (R100). -/
def execDec (i : Nat) (c : Bytes) (s : State) : Host.Outcome State Fault Refusal :=
  feedChunk i c s

/-- `RST@i()` (R104, R124). -/
def execRst (i : Nat) (s : State) : Host.Outcome State Fault Refusal :=
  unlessRefused (addressRefusal s i) (s.finishReset i)

/-- `DEC.BYTE@i(0x00)`, which is `DEC@i([0x00])` (R118). -/
def execDecByteDelim (i : Nat) (s : State) : Host.Outcome State Fault Refusal :=
  feedChunk i [delim] s

/-- `DEC.BYTE@i(b)`, `b` non-zero, which is `DEC@i([b])` (R118). -/
def execDecByteBody (i : Nat) (b : Byte) (s : State) : Host.Outcome State Fault Refusal :=
  feedChunk i [b] s

end Sys2Proof.Machine
end

