-- ==== Sys2Proof/Machine/EncoderOps.lean ====
section
/-! DEFINITION. The meanings of the encoder's operations: `ENC` (R85) and its beats (R112, R113). -/

namespace Sys2Proof.Machine

/-- `ENC(P)`: the frame of `P` on `enc_out` and as the result; no state is read or written (R85). -/
def execEnc (P : Bytes) (s : State) : Host.Outcome State Fault Refusal :=
  unlessRefused (encRefusal s P.length) (s.finishFrame (encodeFrame P))

/-- `ENC.END()` (R113). -/
def execEncEnd (s : State) : Host.Outcome State Fault Refusal :=
  .next (s.finishBeat s.encoder.finish)

/-- `ENC.PUSH(0x00)` (R112). -/
def execEncPushZ (s : State) : Host.Outcome State Fault Refusal :=
  .next (s.finishBeat (s.encoder.push delim))

/-- `ENC.PUSH(b)`, `b` non-zero (R112). -/
def execEncPushNZ (b : Byte) (s : State) : Host.Outcome State Fault Refusal :=
  .next (s.finishBeat (s.encoder.push b))

end Sys2Proof.Machine
end

