-- ==== Sys2Proof/Machine/SpanOps.lean ====
section
/-! DEFINITION. The meanings of the classes of formats C and B: one byte of a span as the per-frame machine takes it, in
the register form (R62, R63, R119, R120). The class fixes the byte; whether that byte stands at a code position or at a
data position is decided by `rem`, as R65 and R120 say (log entry 4). -/

namespace Sys2Proof.Machine

/-- `TERM`: the delimiter ends the span; its payload is delivered if a block just ended there (R62, R120). -/
def execTerm (i : Nat) (s : State) : Host.Outcome State Fault Refusal :=
  feedByte i delim s

/-- `LEN1`: an empty block starts; the block before it, if any, gets its implied zero (R62, R120). -/
def execLen1 (i : Nat) (s : State) : Host.Outcome State Fault Refusal :=
  feedByte i codeEmpty s

/-- `LEN255`: a block of 254 data bytes starts, after which no zero is implied (R62, R120). -/
def execLen255 (i : Nat) (s : State) : Host.Outcome State Fault Refusal :=
  feedByte i codeFull s

/-- `LENN`: a block of `code - 1` data bytes starts (R62, R120). -/
def execLenN (i : Nat) (code : Byte) (s : State) : Host.Outcome State Fault Refusal :=
  feedByte i code s

/-- `DATA`: a byte of the current block, copied verbatim (R63, R120). -/
def execData (i : Nat) (b : Byte) (s : State) : Host.Outcome State Fault Refusal :=
  feedByte i b s

end Sys2Proof.Machine
end

