-- ==== Sys2Proof/Machine/Dispatch.lean ====
section
/-! DEFINITION. One arm per operation, each one direct call of its meaning. -/

namespace Sys2Proof.Machine

def exec (i : Instr) (s : State) : Host.Outcome State Fault Refusal :=
  match i with
  | .enc payload => Sys2Proof.Machine.execEnc payload s
  | .dec k chunk => Sys2Proof.Machine.execDec k chunk s
  | .rst k => Sys2Proof.Machine.execRst k s
  | .encEnd => Sys2Proof.Machine.execEncEnd s
  | .encPushZ => Sys2Proof.Machine.execEncPushZ s
  | .encPushNZ b => Sys2Proof.Machine.execEncPushNZ b s
  | .decByteDelim k => Sys2Proof.Machine.execDecByteDelim k s
  | .decByteBody k b => Sys2Proof.Machine.execDecByteBody k b s
  | .term k => Sys2Proof.Machine.execTerm k s
  | .len1 k => Sys2Proof.Machine.execLen1 k s
  | .len255 k => Sys2Proof.Machine.execLen255 k s
  | .lenN k code => Sys2Proof.Machine.execLenN k code s
  | .data k b => Sys2Proof.Machine.execData k b s

end Sys2Proof.Machine
end

