-- ==== Sys2Proof/Machine/Step.lean ====
section
/-! DEFINITION. One step: the block takes the oldest operation the host has issued and carries it out whole (R16, R47,
R48). It never acts by itself, so a step with nothing issued leaves every field as it is (log entry 2). -/

namespace Sys2Proof.Machine

def step (s : State) : Host.Outcome State Fault Refusal :=
  match s.pending with
  | [] => .next s
  | t :: rest => exec (decode t) { s with pending := rest }

/-- The host issues an operation after those it has issued already (R48). -/
def State.issue (s : State) (t : Transfer) : State := { s with pending := s.pending ++ [t] }

/-- The state in which a table word is what the next step takes (log entry 14). A word no port carries cannot be
issued and changes nothing. -/
def State.withFetchWord (s : State) (nbits w : Nat) : State :=
  match transferOfTableWord nbits w with
  | .ok t => { s with pending := t :: s.pending }
  | .error _ => s

end Sys2Proof.Machine
end

