-- ==== Sys2Proof/Safety.lean ====
section
/-! DEFINITION. The terms claims are stated in: when an operation is accepted, what it addresses, what it may change,
and the invariant of the reachable states (R20, R21, R111, R121). A safe run is one in which every step answers a next
state; with the default parameters every run is safe (R150). -/

namespace Sys2Proof.Machine

/-- No byte of the sequence is the delimiter. -/
def zeroFree (N : Bytes) : Bool := N.all (fun b => decide (b ≠ delim))

/-- Feeding `n` bytes to instance `i` has a step (R10, R91). -/
abbrev State.accepts (s : State) (i n : Nat) : Prop :=
  hasInstance s.config.nDec i = true ∧ withinBound s.config.maxChunkIn n = true ∧
    withinBound s.config.dbufCap ((s.decoder i).dbuf.length + n) = true

/-- The operation has a step in this state (R10, R91). -/
def State.acceptsInstr (s : State) : Instr → Prop
  | .enc P => withinBound s.config.maxPayload P.length = true
  | .dec i c => s.accepts i c.length
  | .rst i => hasInstance s.config.nDec i = true
  | .encEnd => True
  | .encPushZ => True
  | .encPushNZ _ => True
  | .decByteDelim i => s.accepts i 1
  | .decByteBody i _ => s.accepts i 1
  | .term i => s.accepts i 1
  | .len1 i => s.accepts i 1
  | .len255 i => s.accepts i 1
  | .lenN i _ => s.accepts i 1
  | .data i _ => s.accepts i 1

/-- The decoder instance an operation is issued to; `none` for the encoder's operations. -/
def addressed : Instr → Option Nat
  | .enc _ => none
  | .dec i _ => some i
  | .rst i => some i
  | .encEnd => none
  | .encPushZ => none
  | .encPushNZ _ => none
  | .decByteDelim i => some i
  | .decByteBody i _ => some i
  | .term i => some i
  | .len1 i => some i
  | .len255 i => some i
  | .lenN i _ => some i
  | .data i _ => some i

/-- From `s` to `t` nothing changed but instance `i` and the result handed to the host (R32). -/
def OnlyInstance (i : Nat) (s t : State) : Prop :=
  (∀ j, j ≠ i → t.decoder j = s.decoder j) ∧ t.encoder = s.encoder ∧ t.config = s.config ∧
    t.pending = s.pending

/-- The buffer is zero-free between operations (R21), the registers represent it (R121), it is within its capacity. -/
def Decoder.invariant (cap : Option Nat) (d : Decoder) : Bool :=
  zeroFree d.dbuf && decide (d.regs = Regs.ofBuffer d.dbuf) && withinBound cap d.dbuf.length

/-- `run` holds at most 253 bytes between beats, none of them zero (R111). -/
def Encoder.invariant (e : Encoder) : Bool := zeroFree e.run && decide (e.run.length ≤ 253)

/-- The invariant of the reachable states. -/
def State.invariant (s : State) : Bool :=
  bankWf s.decoders &&
    s.decoders.all (fun p => hasInstance s.config.nDec p.1 && p.2.invariant s.config.dbufCap) &&
    s.encoder.invariant

end Sys2Proof.Machine
end

