-- ==== Sys2Proof/Certificates/Slice0/Obligations.lean ====
section
/-! DEFINITION. The statements for the provers, from the numbered rules of spec/. Every statement holds in every state,
those no run reaches among them, unless it names a premise that rules them out. -/

open Sys2Proof Sys2Proof.Machine

/-! ## Reset -/

/-- R31, R124: the reset values, after reset and after `RST`. -/
def Obligations.ResetAndRstGiveTheResetValues : Prop :=
  (State.reset.encoder.run = [] ∧ State.reset.encoder.flushed = false) ∧
  (∀ i, (State.reset.decoder i).dbuf = [] ∧
    (State.reset.decoder i).regs = { code := 0#8, rem := 0, out := [] }) ∧
  Regs.ofBuffer [] = { code := 0#8, rem := 0, out := [] } ∧
  ∀ (s : State) (i : Nat), hasInstance s.config.nDec i = true →
    ∃ t, exec (.rst i) s = .next t ∧ (t.decoder i).dbuf = [] ∧
      (t.decoder i).regs = { code := 0#8, rem := 0, out := [] }

/-- R104: `RST` empties the buffer without examining it, produces no output, touches nothing else and is idempotent;
the half of a frame fed before it is lost. -/
def Obligations.RstDiscardsTheResidueSilently : Prop :=
  ∀ (s : State) (i : Nat), hasInstance s.config.nDec i = true →
    ∃ t, exec (.rst i) s = .next t ∧
      (t.decoder i).dbuf = [] ∧ (t.decoder i).regs = Regs.reset ∧
      (t.decoder i).delivered = (s.decoder i).delivered ∧
      t.result = .done ∧ OnlyInstance i s t ∧
      ((s.decoder i).dbuf = [] ∧ (s.decoder i).regs = Regs.reset → t.decoder i = s.decoder i) ∧
      exec (.rst i) t = .next t ∧
      (t.accepts i 1 → ∃ u, exec (.dec i [delim]) t = .next u ∧ u.result = .decoded none ∧
        (u.decoder i).dbuf = [] ∧ (u.decoder i).delivered = (s.decoder i).delivered)

/-! ## The encoder -/

/-- R85: `ENC(P)` returns the frame of R81 to R84, beyond a finite `MAX_PAYLOAD` it has no step, and it reads and
writes no state: only `enc_out` and the result change. That an `ENC` inside an open byte-serial payload is taken too and
puts its frame on `enc_out` at once is log entry 7, the model's choice. -/
def Obligations.EncReturnsTheFrame : Prop :=
  ∀ (s : State) (P F : Bytes),
    F = ((segments P).map (fun S => if S = [] then [0x01#8] else
      ((chunks254 S).map (fun c => BitVec.ofNat 8 (c.length + 1) :: c)).flatten)).flatten ++ [0x00#8] →
    (withinBound s.config.maxPayload P.length = true →
      exec (.enc P) s =
        .next { s with encoder := { s.encoder with sent := s.encoder.sent ++ F }, result := .frame F }) ∧
    (withinBound s.config.maxPayload P.length = false → exec (.enc P) s = .refused .payloadTooLong)

/-- R81: `k` zero bytes give `k + 1` zero-free segments, which with the zeros between them are the payload. -/
def Obligations.SegmentsSplitAtEveryZero : Prop :=
  ∀ P : Bytes,
    (segments P).length = P.count delim + 1 ∧
    (∀ S ∈ segments P, delim ∉ S) ∧
    [delim].intercalate (segments P) = P ∧
    segments [] = [[]] ∧ encodeFrame [] = [0x01#8, 0x00#8]

/-- R82: the chunks are the segment cut greedily: all but the last have 254 bytes, the last has 1 to 254, and there
are `ceil(|S| / 254)`. -/
def Obligations.ChunksAreCutGreedily : Prop :=
  ∀ S : Bytes, S ≠ [] →
    (chunks254 S).flatten = S ∧
    (chunks254 S).length = (S.length + 253) / 254 ∧
    (∀ c ∈ (chunks254 S).dropLast, c.length = 254) ∧
    (∀ c ∈ (chunks254 S).getLast?, 1 ≤ c.length ∧ c.length ≤ 254)

/-- R130, R131: the frame `ENC` returns has one zero byte, its last; it is exactly one span and leaves no residue. -/
def Obligations.FrameHasItsOnlyZeroAtTheEnd : Prop :=
  ∀ (s : State) (P : Bytes), withinBound s.config.maxPayload P.length = true →
    ∃ t F body, exec (.enc P) s = .next t ∧ t.result = .frame F ∧
      F = body ++ [delim] ∧ delim ∉ body ∧ frames F = [F] ∧ residue F = []

/-- R75: the length of a frame, and its bounds. -/
def Obligations.FrameLengthIsBounded : Prop :=
  ∀ P : Bytes,
    (encodeFrame P).length + P.count delim = P.length + ((segments P).map nblocks).sum + 1 ∧
    P.length + 2 ≤ (encodeFrame P).length ∧
    ((encodeFrame P).length = P.length + 2 ↔ ∀ S ∈ segments P, S.length ≤ 254) ∧
    (encodeFrame P).length ≤ P.length + 2 + (P.length - P.count delim) / 254 ∧
    (encodeFrame P).length ≤ P.length + 2 + P.length / 254

/-- R133: deleting the zero between an offending segment and a non-empty one leaves the frame as it is, so two
payloads share one frame. `Q` ends on a segment boundary. -/
def Obligations.FrameForgetsTheZeroAfterAnOffendingSegment : Prop :=
  ∀ (Q S : Bytes) (b : Byte) (R : Bytes),
    (Q = [] ∨ ∃ Q', Q = Q' ++ [delim]) → delim ∉ S → offending S = true → b ≠ delim →
    encodeFrame (Q ++ S ++ [delim] ++ b :: R) = encodeFrame (Q ++ S ++ b :: R)

/-- R112: `ENC.PUSH` of a zero closes the segment in each of its three cases; of a non-zero byte it extends the run,
or emits a full block when the run reaches 254. Nothing but the encoder and the result changes. In states no run
reaches, with 254 or more bytes in `run`, this is log entry 18, and that no `MAX_PAYLOAD` refuses the beat is log
entry 8, both the model's choice. -/
def Obligations.EncPushExtendsOrClosesTheSegment : Prop :=
  ∀ s : State,
    (s.encoder.run ≠ [] →
      exec .encPushZ s = .next
        { s with
          encoder := { run := [], flushed := false,
                       sent := s.encoder.sent ++ BitVec.ofNat 8 (s.encoder.run.length + 1) :: s.encoder.run }
          result := .emitted (BitVec.ofNat 8 (s.encoder.run.length + 1) :: s.encoder.run) }) ∧
    (s.encoder.run = [] ∧ s.encoder.flushed = false →
      exec .encPushZ s = .next
        { s with encoder := { run := [], flushed := false, sent := s.encoder.sent ++ [0x01#8] },
                 result := .emitted [0x01#8] }) ∧
    (s.encoder.run = [] ∧ s.encoder.flushed = true →
      exec .encPushZ s = .next
        { s with encoder := { run := [], flushed := false, sent := s.encoder.sent }, result := .emitted [] }) ∧
    ∀ b : Byte, b ≠ 0x00#8 →
      (s.encoder.run.length + 1 = 254 →
        exec (.encPushNZ b) s = .next
          { s with
            encoder := { run := [], flushed := true,
                         sent := s.encoder.sent ++ 0xFF#8 :: (s.encoder.run ++ [b]) }
            result := .emitted (0xFF#8 :: (s.encoder.run ++ [b])) }) ∧
      (s.encoder.run.length + 1 ≠ 254 →
        exec (.encPushNZ b) s = .next
          { s with encoder := { s.encoder with run := s.encoder.run ++ [b] }, result := .emitted [] })

/-- R113, R115: `ENC.END` closes the segment, emits the delimiter and leaves the registers idle. In states no run
reaches, with 255 or more bytes in `run`, the code byte is log entry 18, and that no `MAX_PAYLOAD` refuses the beat is
log entry 8, both the model's choice. -/
def Obligations.EncEndClosesThePayload : Prop :=
  ∀ (s : State) (E : Bytes),
    E = (if s.encoder.run ≠ [] then BitVec.ofNat 8 (s.encoder.run.length + 1) :: s.encoder.run
         else if s.encoder.flushed = false then [0x01#8] else []) ++ [0x00#8] →
    exec .encEnd s = .next
      { s with encoder := { run := [], flushed := false, sent := s.encoder.sent ++ E }, result := .emitted E }

/-- R117: from idle registers the beats of `P` emit exactly `encode(P)` and leave the registers idle; and the
invariant the rule gives: after the `ENC.PUSH` beats of any `Q`, with `S` the last of its segments, the earlier
segments and the full chunks of `S` have been emitted, `run` is the rest of `S`, and `flushed` says whether `S` has
254 bytes or more. That the beats of a payload longer than a finite `MAX_PAYLOAD` are taken is log entry 8, the model's
choice. -/
def Obligations.EncBeatsEmitTheFrame : Prop :=
  ∀ (s : State) (P : Bytes) (rest : List Transfer), s.encoder.run = [] → s.encoder.flushed = false →
    (s.pending = encBeats P ++ rest →
      ∃ t : State, Host.Core.run Sys2Proof.core (P.length + 1) s = .next t ∧
        t.encoder = { run := [], flushed := false, sent := s.encoder.sent ++ encodeFrame P } ∧
        t.pending = rest ∧ t.decoders = s.decoders ∧ t.config = s.config) ∧
    ∀ (Q S : Bytes), S = (segments Q).getLastD [] →
      s.pending = Q.map (fun b => .encSymbol (encSymbolOf false b)) ++ rest →
      ∃ t : State, Host.Core.run Sys2Proof.core Q.length s = .next t ∧
        t.encoder =
          { run := S.drop (254 * (S.length / 254))
            flushed := decide (254 ≤ S.length)
            sent := s.encoder.sent ++ ((segments Q).dropLast.map encseg).flatten ++
              (((chunks254 S).take (S.length / 254)).map blockOf).flatten }

/-- R182: what a byte-serial encoder holds back and emits. The premise is the encoder's invariant (R111). -/
def Obligations.EncoderHoldsBackAtMost253Bytes : Prop :=
  ∀ (s t : State) (x : Instr), s.encoder.invariant = true →
    (x = .encEnd ∨ x = .encPushZ ∨ ∃ b, x = .encPushNZ b ∧ b ≠ 0x00#8) → exec x s = .next t →
    t.encoder.run.length ≤ 253 ∧ ∃ E : Bytes, t.result = .emitted E ∧ E.length ≤ 255

/-! ## The decoder, transaction level -/

/-- R98: what `frames` and `residue` are: the stream cut at every zero byte, losing nothing. Then `DEC(c)` in closed
form, for every buffer content: the payloads of the well-formed spans of `B ++ c` in order, `none` when there is none
(R97), and the buffer left holding the residue. Nothing else changes. -/
def Obligations.DecIsTheClosedForm : Prop :=
  (∀ X : Bytes,
    (frames X).flatten ++ residue X = X ∧ delim ∉ residue X ∧ (frames X).length = X.count delim ∧
    ∀ F ∈ frames X, ∃ N : Bytes, F = N ++ [delim] ∧ delim ∉ N) ∧
  ∀ (s : State) (i : Nat) (c B : Bytes) (res : List Bytes),
    s.accepts i c.length → B = (s.decoder i).dbuf → res = (frames (B ++ c)).filterMap decodeFrame →
    ∃ t, exec (.dec i c) s = .next t ∧
      (t.decoder i).dbuf = residue (B ++ c) ∧ delim ∉ (t.decoder i).dbuf ∧
      t.result = .decoded (if res = [] then none else some res) ∧
      (t.decoder i).delivered = (s.decoder i).delivered ++ res ∧
      OnlyInstance i s t ∧
      (delim ∉ B → frames (B ++ c) =
        match frames c with
        | [] => []
        | F :: Fs => (B ++ F) :: Fs)

/-- R99, R102 cases a and b: a chunk without a zero byte, the empty one among them, is only appended; nothing is
delivered. The premise is the invariant of R21. -/
def Obligations.ChunkWithoutZeroIsOnlyBuffered : Prop :=
  ∀ (s : State) (i : Nat) (c : Bytes), s.accepts i c.length → delim ∉ (s.decoder i).dbuf → delim ∉ c →
    ∃ t, exec (.dec i c) s = .next t ∧
      (t.decoder i).dbuf = (s.decoder i).dbuf ++ c ∧ t.result = .decoded none ∧
      (t.decoder i).delivered = (s.decoder i).delivered ∧ OnlyInstance i s t

/-- R95: both readings of the length test and the index form return the same value on every span. -/
def Obligations.SpanReadingsAndIndexFormAgree : Prop :=
  ∀ N : Bytes, delim ∉ N →
    (spanOutcome .a (N ++ [delim])).payload = (spanOutcome .b (N ++ [delim])).payload ∧
    decodeFrame (N ++ [delim]) = decodeFrameIndexed (N ++ [delim])

/-- R96: the machine of states and transitions ends, within three transitions a byte, with what R94 returns. -/
def Obligations.SpanMachineEndsWithTheFrameResult : Prop :=
  ∀ (N : Bytes) (n : Nat), delim ∉ N → 3 * (N.length + 1) ≤ n →
    ((SpanMachine.start (N ++ [delim])).advanceN n).answer = some (decodeFrame (N ++ [delim]))

/-- R106: a span is well-formed exactly when it is not empty and the chain of code positions lands on the delimiter;
its payload and the payload's length. -/
def Obligations.WellFormedSpanInClosedForm : Prop :=
  ∀ N : Bytes, delim ∉ N →
    decodeFrame (N ++ [delim]) = (if N = [] then none else (blocksOf N).map payloadOfBlocks) ∧
    (∀ bs, N = (bs.map (fun p => p.1 :: p.2)).flatten ∧ (∀ p ∈ bs, p.2.length + 1 = p.1.toNat) ↔
      blocksOf N = some bs) ∧
    (∀ bs, blocksOf N = some bs →
      (payloadOfBlocks bs).length + bs.length =
        N.length + (bs.dropLast.filter (fun p => impliesZero p.1)).length) ∧
    (decodeFrame (N ++ [delim]) = none ↔ N = [] ∨
      ∃ (bs : List (Byte × Bytes)) (L : Byte) (T : Bytes), (∀ p ∈ bs, p.2.length + 1 = p.1.toNat) ∧
        N = (bs.map (fun p => p.1 :: p.2)).flatten ++ L :: T ∧ T.length + 1 < L.toNat)

/-- R151, R154: the exact condition of each cause under reading A. `bs` are the blocks before the first that does not
fit, `L :: T` the rest of the span body. -/
def Obligations.MalformedSpanHasTheCauseOfItsFirstBadBlock : Prop :=
  spanOutcome .a [delim] = .malformed .zeroLen ∧
  ∀ (bs : List (Byte × Bytes)) (L : Byte) (T N : Bytes),
    (∀ p ∈ bs, p.2.length + 1 = p.1.toNat) → N = (bs.map (fun p => p.1 :: p.2)).flatten ++ L :: T →
    delim ∉ N →
    (T.length + 2 < L.toNat → spanOutcome .a (N ++ [delim]) = .malformed .short) ∧
    (T.length + 2 = L.toNat → spanOutcome .a (N ++ [delim]) = .malformed .zeroInData)

/-- R152, R138: a malformed span is removed and leaves no trace: the rest of the chunk is decoded as if the buffer had
been empty before it. The premise on the buffer is the invariant of R21. -/
def Obligations.MalformedSpanLeavesNoTrace : Prop :=
  ∀ (s : State) (i : Nat) (c X : Bytes),
    delim ∉ (s.decoder i).dbuf → delim ∉ c → decodeFrame ((s.decoder i).dbuf ++ c ++ [delim]) = none →
    s.accepts i (c ++ [delim] ++ X).length →
    ∃ t u, exec (.dec i (c ++ [delim] ++ X)) s = .next t ∧
      exec (.dec i X) (s.setDecoder i { s.decoder i with dbuf := [] }) = .next u ∧
      (t.decoder i).dbuf = (u.decoder i).dbuf ∧ t.result = u.result ∧
      (t.decoder i).delivered = (u.decoder i).delivered

/-- R103: two chunks one after the other leave what their concatenation leaves, and give its payload list cut in two. -/
def Obligations.DecDistributesOverConcatenation : Prop :=
  ∀ (s : State) (i : Nat) (c d : Bytes), s.accepts i (c ++ d).length →
    ∃ t u v r1 r2 r, exec (.dec i c) s = .next t ∧ exec (.dec i d) t = .next u ∧
      exec (.dec i (c ++ d)) s = .next v ∧
      u.decoder i = v.decoder i ∧
      t.result = .decoded r1 ∧ u.result = .decoded r2 ∧ v.result = .decoded r ∧
      payloadsOf r = payloadsOf r1 ++ payloadsOf r2

/-- R134: however a stream is cut into chunks, the instance ends with the residue of `B ++ X` and has delivered the
payloads of its well-formed spans, in order. With finite parameters each chunk `c` must be accepted when its turn comes
(R10, R91), after the chunks `before` it: it is within `MAX_CHUNK_IN`, and with what the buffer then holds within
`DBUF_CAP`. The stream as a whole is not bounded by either; a stream that fits the capacity beside `B` always meets the
second. The premise on the buffer is the invariant of R21. -/
def Obligations.FragmentationDoesNotMatter : Prop :=
  ∀ (s : State) (i : Nat) (cs : List Bytes) (rest : List Transfer),
    s.pending = cs.map (.decWhole i) ++ rest → hasInstance s.config.nDec i = true →
    (∀ c ∈ cs, withinBound s.config.maxChunkIn c.length = true) →
    (withinBound s.config.dbufCap ((s.decoder i).dbuf.length + cs.flatten.length) = true ∨
      ∀ before c after, cs = before ++ c :: after →
        withinBound s.config.dbufCap
          ((residue ((s.decoder i).dbuf ++ before.flatten)).length + c.length) = true) →
    delim ∉ (s.decoder i).dbuf →
    ∃ t : State, Host.Core.run Sys2Proof.core cs.length s = .next t ∧
      (t.decoder i).dbuf = residue ((s.decoder i).dbuf ++ cs.flatten) ∧
      (t.decoder i).delivered =
        (s.decoder i).delivered ++ (frames ((s.decoder i).dbuf ++ cs.flatten)).filterMap decodeFrame ∧
      t.pending = rest ∧ t.encoder = s.encoder ∧ ∀ j, j ≠ i → t.decoder j = s.decoder j

/-! ## The encoder and the decoder together -/

/-- R133: on an empty buffer `DEC(ENC(P))` gives one payload, `P` with the zero after each offending segment deleted;
it is `P` exactly when `RT(P)`. -/
def Obligations.DecOfEncLosesExactlyTheOffendingZeros : Prop :=
  (∀ (s : State) (i : Nat) (P : Bytes), (s.decoder i).dbuf = [] → s.accepts i (encodeFrame P).length →
    ∃ t, exec (.dec i (encodeFrame P)) s = .next t ∧ t.result = .decoded (some [lossy P]) ∧
      (t.decoder i).dbuf = [] ∧ (t.decoder i).delivered = (s.decoder i).delivered ++ [lossy P]) ∧
  ∀ P : Bytes, lossy P = P ↔ roundTrips P = true

/-- R132: the round trip under `RT(P)`, and the kinds of payload that satisfy it. -/
def Obligations.RoundTripReturnsThePayload : Prop :=
  (∀ (s t : State) (i : Nat) (P F : Bytes), roundTrips P = true → (s.decoder i).dbuf = [] →
    exec (.enc P) s = .next t → t.result = .frame F → t.accepts i F.length →
    ∃ u, exec (.dec i F) t = .next u ∧ u.result = .decoded (some [P]) ∧ (u.decoder i).dbuf = []) ∧
  (∀ P : Bytes, roundTrips P = true ↔
    ∀ S ∈ (segments P).dropLast, ¬ (0 < S.length ∧ S.length % 254 = 0)) ∧
  (∀ P : Bytes, P.length < 255 → roundTrips P = true) ∧
  (∀ P : Bytes, delim ∉ P → roundTrips P = true) ∧
  (∀ n : Nat, roundTrips (List.replicate n delim) = true)

/-- R136: the frames of any number of payloads fed in one chunk give their payloads in order. -/
def Obligations.ManyFramesInOneChunk : Prop :=
  ∀ (s : State) (i : Nat) (Ps : List Bytes),
    (s.decoder i).dbuf = [] → s.accepts i ((Ps.map encodeFrame).flatten).length →
    ∃ t, exec (.dec i (Ps.map encodeFrame).flatten) s = .next t ∧ (t.decoder i).dbuf = [] ∧
      t.result = .decoded (if Ps = [] then none else some (Ps.map lossy)) ∧
      ((∀ P ∈ Ps, roundTrips P = true) → Ps.map lossy = Ps)

/-- R137: whatever ended on a zero byte before it, a frame is decoded; the spans before it give what they give. -/
def Obligations.DecodingRecoversAfterMalformedSpans : Prop :=
  ∀ (s : State) (i : Nat) (M P : Bytes),
    (s.decoder i).dbuf = [] → (M = [] ∨ ∃ M', M = M' ++ [delim]) →
    s.accepts i (M ++ encodeFrame P).length →
    ∃ t, exec (.dec i (M ++ encodeFrame P)) s = .next t ∧
      t.result = .decoded (some ((frames M).filterMap decodeFrame ++ [lossy P])) ∧
      (t.decoder i).dbuf = [] ∧
      ((∀ F ∈ frames M, decodeFrame F = none) → t.result = .decoded (some [lossy P]))

/-! ## The decoder, byte by byte -/

/-- R118: `DEC.BYTE`. The premise on the buffer is the invariant of R21. -/
def Obligations.DecByteBuffersOrDecodesTheSpan : Prop :=
  ∀ (s : State) (i : Nat), s.accepts i 1 → delim ∉ (s.decoder i).dbuf →
    (∀ b : Byte, b ≠ delim →
      ∃ t, exec (.decByteBody i b) s = .next t ∧ (t.decoder i).dbuf = (s.decoder i).dbuf ++ [b] ∧
        t.result = .decoded none ∧ (t.decoder i).delivered = (s.decoder i).delivered ∧
        OnlyInstance i s t) ∧
    ∃ t, exec (.decByteDelim i) s = .next t ∧ (t.decoder i).dbuf = [] ∧
      t.result = .decoded ((decodeFrame ((s.decoder i).dbuf ++ [delim])).map (fun P => [P])) ∧
      (t.decoder i).delivered =
        (s.decoder i).delivered ++ (decodeFrame ((s.decoder i).dbuf ++ [delim])).toList ∧
      OnlyInstance i s t

/-- R62, R120: a code byte at a code position. `LEN1`, `LEN255` and `LENN` append the implied zero of the block before
them, if it has one, and start their own block. That the buffer takes the byte beside the registers (R118), also where
the registers do not represent it (R121), is log entry 3, the model's choice. -/
def Obligations.CodeByteStartsABlock : Prop :=
  ∀ (s : State) (i : Nat) (x : Instr) (b : Byte), s.accepts i 1 → (s.decoder i).regs.rem = 0 →
    ((x = .len1 i ∧ b = 0x01#8) ∨ (x = .len255 i ∧ b = 0xFF#8) ∨
      (x = .lenN i b ∧ 2 ≤ b.toNat ∧ b.toNat ≤ 254)) →
    ∃ t, exec x s = .next t ∧
      t.decoder i =
        { dbuf := (s.decoder i).dbuf ++ [b]
          regs :=
            { code := b
              rem := b.toNat - 1
              out := if (s.decoder i).regs.code ≠ 0#8 ∧ (s.decoder i).regs.code ≠ 0xFF#8
                then (s.decoder i).regs.out ++ [0x00#8] else (s.decoder i).regs.out }
          delivered := (s.decoder i).delivered } ∧
      t.result = .decoded none ∧ OnlyInstance i s t

/-- R62, R63, R120: a data byte at a data position is copied; the delimiter ends the span, and delivers its payload
exactly when a block just ended there. That the buffer follows beside the registers (R118), also where the registers do
not represent it (R121), is log entry 3, the model's choice. -/
def Obligations.DataIsCopiedAndTermEndsTheSpan : Prop :=
  ∀ (s : State) (i : Nat), s.accepts i 1 →
    (∀ b : Byte, 0 < (s.decoder i).regs.rem → b ≠ 0x00#8 →
      ∃ t, exec (.data i b) s = .next t ∧
        t.decoder i =
          { dbuf := (s.decoder i).dbuf ++ [b]
            regs :=
              { code := (s.decoder i).regs.code
                rem := (s.decoder i).regs.rem - 1
                out := (s.decoder i).regs.out ++ [b] }
            delivered := (s.decoder i).delivered } ∧
        t.result = .decoded none ∧ OnlyInstance i s t) ∧
    ((s.decoder i).regs.code ≠ 0#8 ∧ (s.decoder i).regs.rem = 0 →
      ∃ t, exec (.term i) s = .next t ∧
        t.decoder i =
          { dbuf := [], regs := { code := 0#8, rem := 0, out := [] }
            delivered := (s.decoder i).delivered ++ [(s.decoder i).regs.out] } ∧
        t.result = .decoded (some [(s.decoder i).regs.out]) ∧ OnlyInstance i s t) ∧
    ((s.decoder i).regs.code = 0#8 ∨ (s.decoder i).regs.rem ≠ 0 →
      ∃ t, exec (.term i) s = .next t ∧
        t.decoder i =
          { dbuf := [], regs := { code := 0#8, rem := 0, out := [] }
            delivered := (s.decoder i).delivered } ∧
        t.result = .decoded none ∧ OnlyInstance i s t)

/-- R62: a whole block then another code byte. The block's data bytes are appended, and one implied zero unless the
block's code is 255. The registers start at a code position. Every beat is a chunk of one byte, and the buffer takes
one byte more at each (log entries 3 and 9, the model's choice). -/
def Obligations.BlockImpliesAZeroUnlessItsCodeIs255 : Prop :=
  ∀ (s : State) (i : Nat) (L c : Byte) (D : Bytes) (rest : List Transfer),
    (s.decoder i).regs.rem = 0 → L ≠ 0#8 → c ≠ 0#8 → delim ∉ D → D.length + 1 = L.toNat →
    s.pending = .spanCode i L :: (D.map (.spanData i) ++ .spanCode i c :: rest) →
    hasInstance s.config.nDec i = true → withinBound s.config.maxChunkIn 1 = true →
    withinBound s.config.dbufCap ((s.decoder i).dbuf.length + (D.length + 2)) = true →
    ∃ t u : State, Host.Core.run Sys2Proof.core 1 s = .next t ∧
      Host.Core.run Sys2Proof.core (D.length + 2) s = .next u ∧
      (u.decoder i).regs =
        { code := c, rem := c.toNat - 1
          out := (t.decoder i).regs.out ++ D ++ if L = 0xFF#8 then [] else [0x00#8] } ∧
      u.pending = rest ∧ (u.decoder i).delivered = (s.decoder i).delivered

/-- R65, R120: whether a byte is a code or a data byte is decided by its position, not by the class it is presented as
(log entry 4, the model's reading): at either position the classes act alike on the same byte. -/
def Obligations.PositionDecidesTheRoleOfAByte : Prop :=
  ∀ (s : State) (i : Nat),
    exec (.len1 i) s = exec (.data i 0x01#8) s ∧ exec (.len255 i) s = exec (.data i 0xFF#8) s ∧
    (∀ b : Byte, exec (.lenN i b) s = exec (.data i b) s) ∧
    (s.accepts i 1 → 0 < (s.decoder i).regs.rem →
      ∃ t, exec (.len1 i) s = .next t ∧ (t.decoder i).regs.code = (s.decoder i).regs.code ∧
        (t.decoder i).regs.out = (s.decoder i).regs.out ++ [0x01#8])

/-- R121: where the registers represent the buffer, the buffer form and the register form give the same outcome for
every byte, and the relation is kept. R121 speaks of R120: that each class of format C or B stands for R120's beat at
either position is log entry 4, the model's reading. -/
def Obligations.RegisterFormRepresentsTheBuffer : Prop :=
  ∀ (s : State) (i : Nat), delim ∉ (s.decoder i).dbuf →
    (s.decoder i).regs = Regs.ofBuffer (s.decoder i).dbuf →
    exec (.decByteDelim i) s = exec (.term i) s ∧
    exec (.decByteBody i 0x01#8) s = exec (.len1 i) s ∧
    exec (.decByteBody i 0xFF#8) s = exec (.len255 i) s ∧
    (∀ b : Byte, b ≠ delim → exec (.decByteBody i b) s = exec (.lenN i b) s ∧
      exec (.decByteBody i b) s = exec (.data i b) s) ∧
    ∀ (t : State) (x : Instr), addressed x = some i → exec x s = .next t →
      (x = .decByteDelim i ∨ ∃ b, b ≠ delim ∧ x = .decByteBody i b) →
      (t.decoder i).regs = Regs.ofBuffer (t.decoder i).dbuf

/-- R119: the bounds of the registers that represent a zero-free buffer. -/
def Obligations.RegisterFormIsNoLargerThanTheBuffer : Prop :=
  ∀ N : Bytes, delim ∉ N →
    (Regs.ofBuffer N).rem ≤ 254 ∧ (Regs.ofBuffer N).out.length ≤ N.length ∧
    ((Regs.ofBuffer N).code = 0#8 ↔ N = [])

/-- R123: a chunk fed byte by byte leaves the instance as one `DEC` of the chunk leaves it, with the same payloads on
`dec_out`. The premise on the buffer is the invariant of R21. -/
def Obligations.DecBeatsDoWhatDecDoes : Prop :=
  ∀ (s : State) (i : Nat) (c : Bytes) (rest : List Transfer),
    s.pending = decBeats i c ++ rest → s.accepts i c.length → delim ∉ (s.decoder i).dbuf →
    ∃ t u : State, Host.Core.run Sys2Proof.core c.length s = .next t ∧
      exec (.dec i c) { s with pending := rest } = .next u ∧
      t.decoder i = u.decoder i ∧ t.pending = rest ∧ OnlyInstance i { s with pending := rest } t ∧
      ∃ res, (t.decoder i).delivered = (s.decoder i).delivered ++ res ∧
        u.result = .decoded (if res = [] then none else some res)

/-- R122: the symbols of two payloads on a physical `dec_out`, one after the other, tell both payloads apart, whatever
the markers' low bits. -/
def Obligations.DecOutSymbolsDetermineThePayload : Prop :=
  ∀ (m m' : Byte) (P P' : Bytes) (Y Y' : List (BitVec 9)),
    decOutSymbols m P ++ Y = decOutSymbols m' P' ++ Y' → P = P' ∧ Y = Y'

/-! ## The whole machine -/

/-- R32, R29, R46: what each operation may change. The encoder's operations leave every instance as it is, and `ENC`
its own registers too; a decoder operation leaves the encoder and every other instance as they are. -/
def Obligations.OperationsChangeOnlyWhatTheyAddress : Prop :=
  ∀ (x : Instr) (s t : State), exec x s = .next t →
    t.config = s.config ∧ t.pending = s.pending ∧
    (∀ i, addressed x = some i → OnlyInstance i s t) ∧
    (addressed x = none → t.decoders = s.decoders) ∧
    (∀ P, x = .enc P → t.encoder.run = s.encoder.run ∧ t.encoder.flushed = s.encoder.flushed)

/-- R32, R29: what an operation does on its instance depends on that instance alone, and `ENC` on its payload alone. -/
def Obligations.InstancesDoNotInfluenceEachOther : Prop :=
  (∀ (x : Instr) (i : Nat) (s s' t : State), addressed x = some i → s'.config = s.config →
    s'.decoder i = s.decoder i → exec x s = .next t →
    ∃ t', exec x s' = .next t' ∧ t'.decoder i = t.decoder i ∧ t'.result = t.result) ∧
  (∀ (P : Bytes) (s s' t : State), s'.config = s.config → exec (.enc P) s = .next t →
    ∃ t', exec (.enc P) s' = .next t' ∧ t'.result = t.result)

/-- R49: operations on different instances, and an encoder operation with a decoder operation, commute; and so does
`ENC` with any operation of the encoder, another `ENC` among them, as to the results, the registers `run` and `flushed`
and every instance. The order of the bytes on `enc_out` follows the order of issue (log entry 7, the model's choice), so
of the model's record `sent` the last clause says only that it holds the same bytes. -/
def Obligations.OperationsOnDifferentInstancesCommute : Prop :=
  (∀ (x y : Instr) (s s1 s2 : State), addressed x ≠ addressed y →
    exec x s = .next s1 → exec y s1 = .next s2 →
    ∃ t1 t2, exec y s = .next t1 ∧ exec x t1 = .next t2 ∧
      (∀ k, t2.decoder k = s2.decoder k) ∧ t2.encoder = s2.encoder ∧
      t1.result = s2.result ∧ t2.result = s1.result) ∧
  ∀ (x y : Instr) (s s1 s2 : State), addressed x = none → addressed y = none →
    ((∃ P, x = .enc P) ∨ ∃ P, y = .enc P) →
    exec x s = .next s1 → exec y s1 = .next s2 →
    ∃ t1 t2, exec y s = .next t1 ∧ exec x t1 = .next t2 ∧
      t2.decoders = s2.decoders ∧ t2.encoder.run = s2.encoder.run ∧ t2.encoder.flushed = s2.encoder.flushed ∧
      t1.result = s2.result ∧ t2.result = s1.result ∧ t2.encoder.sent.Perm s2.encoder.sent

/-- R10, R91: an operation has a step exactly when its operands are within the parameters; otherwise it is refused.
The model's choice in it: the beats `ENC.PUSH` and `ENC.END` always have a step, whatever `MAX_PAYLOAD` (log entry 8),
and a single byte on `dec_in`, the delimiter too, counts against `MAX_CHUNK_IN` and `DBUF_CAP` (log entry 9). -/
def Obligations.RefusedExactlyBeyondTheParameters : Prop :=
  ∀ (x : Instr) (s : State),
    (s.acceptsInstr x → ∃ t, exec x s = .next t) ∧
    (¬ s.acceptsInstr x → ∃ r, exec x s = .refused r ∧
      (r = .payloadTooLong ∨ r = .chunkTooLong ∨ r = .bufferFull ∨ r = .absentInstance))

/-- R150: no operation raises, traps or faults; the only steps refused are those beyond a parameter of R10, and with
the default parameters every step has a next state. -/
def Obligations.NoOperationEverStops : Prop :=
  (∀ (s : State) (f : Fault), step s ≠ .fault f) ∧
  (∀ (s : State) (r : Refusal), step s = .refused r →
    r = .payloadTooLong ∨ r = .chunkTooLong ∨ r = .bufferFull ∨ r = .absentInstance) ∧
  ∀ s : State, s.config = Config.unbounded → ∃ t, step s = .next t ∧ t.config = Config.unbounded

/-- R46, R114, R139: what has appeared on an output port stays there; a step only adds to it. -/
def Obligations.OutputsAreNeverTakenBack : Prop :=
  ∀ s t : State, step s = .next t →
    s.encoder.sent <+: t.encoder.sent ∧ ∀ i, (s.decoder i).delivered <+: (t.decoder i).delivered

/-- R21, R111, R121: the invariant holds right after reset. -/
def Obligations.InvariantHoldsAtReset : Prop := State.reset.invariant = true

/-- R21, R111, R121: every step keeps the invariant: buffers zero-free, within capacity and represented by the
registers, at most 253 non-zero bytes held back by the encoder, the bank in its canonical form. -/
def Obligations.EveryStepKeepsTheInvariant : Prop :=
  ∀ s t : State, s.invariant = true → step s = .next t → t.invariant = true

/-! ## Encoding and fetching -/

/-- R62, R71, R72: the classes of each symbol format, for every word. That a zero in format B decodes to
`DEC.BYTE.DELIM` is log entry 15, the model's reading. -/
def Obligations.EverySymbolHasItsClass : Prop :=
  (∀ w : EncSymbol, decode (.encSymbol w) =
    if w.toNat ≥ 256 then .encEnd else if w.toNat = 0 then .encPushZ
    else .encPushNZ (BitVec.ofNat 8 w.toNat)) ∧
  ∀ (i : Nat) (b : Byte),
    decode (.decSymbol i b) = (if b.toNat = 0 then .decByteDelim i else .decByteBody i b) ∧
    decode (.spanCode i b) =
      (if b.toNat = 0 then .term i else if b.toNat = 1 then .len1 i
       else if b.toNat = 255 then .len255 i else .lenN i b) ∧
    decode (.spanData i b) = (if b.toNat = 0 then .decByteDelim i else .data i b)

/-- R70, R71, R72: decoding an encoded well-formed operation gives it back, with every operand. -/
def Obligations.DecodeOfEncodeIsTheOperation : Prop :=
  ∀ x : Instr, x.wellFormed = true → decode (encode x) = x

/-- R67, R71: every transfer decodes to a well-formed operation on the same port, and encoding that gives the transfer
back, but for the ignored bits of `ENC.END` and for a zero at a data position (log entry 15, the model's reading). -/
def Obligations.EncodeOfDecodeIsTheTransfer : Prop :=
  ∀ t : Transfer, (decode t).wellFormed = true ∧ (decode t).port = t.port ∧
    ((∀ w, t = .encSymbol w → w.toNat ≤ 256) → (∀ i, t ≠ .spanData i 0x00#8) → encode (decode t) = t)

/-- 95_test_vectors.md V17: words of the table and the classes they are in. -/
def Obligations.TableWordsDecode : Prop :=
  decode (.encSymbol 0b100000000#9) = .encEnd ∧ decode (.encSymbol 0b110101011#9) = .encEnd ∧
  decode (.encSymbol 0b000000000#9) = .encPushZ ∧ decode (.encSymbol 0b000010001#9) = .encPushNZ 0x11#8 ∧
  decode (.encSymbol 0b011111111#9) = .encPushNZ 0xFF#8 ∧
  decode (.decSymbol 3 0b00000000#8) = .decByteDelim 3 ∧ decode (.decSymbol 3 0b01111111#8) = .decByteBody 3 0x7F#8 ∧
  decode (.spanCode 3 0b00000000#8) = .term 3 ∧ decode (.spanCode 3 0b00000001#8) = .len1 3 ∧
  decode (.spanCode 3 0b11111111#8) = .len255 3 ∧ decode (.spanCode 3 0b10000000#8) = .lenN 3 0x80#8 ∧
  decode (.spanData 3 0b11111111#8) = .data 3 0xFF#8

/-- R16, R47, R48: a step takes the oldest issued operation off the ports and does what `exec` does with the decoded
operation; with nothing issued it changes nothing (log entry 2, the model's choice). -/
def Obligations.StepRunsTheDecodedOperation : Prop :=
  (∀ (s : State) (t : Transfer) (rest : List Transfer), s.pending = t :: rest →
    step s = exec (decode t) { s with pending := rest }) ∧
  (∀ (s : State) (x : Instr) (rest : List Transfer), x.wellFormed = true → s.pending = encode x :: rest →
    step s = exec x { s with pending := rest }) ∧
  ∀ s : State, s.pending = [] → step s = .next s
end

