-- ==== Sys2Proof/Laws/State.lean ====
section
/-! SUPPORT. One lemma per field per update of the state, each true by `rfl`. -/

namespace Sys2Proof.Machine

section
variable (s : State) (i : Nat) (d : Decoder) (r : Decoder × List Bytes) (q : Bytes × Encoder) (F : Bytes)

@[simp] theorem State.setDecoder_config : (s.setDecoder i d).config = s.config := rfl
@[simp] theorem State.setDecoder_encoder : (s.setDecoder i d).encoder = s.encoder := rfl
@[simp] theorem State.setDecoder_decoders : (s.setDecoder i d).decoders = store i d s.decoders := rfl
@[simp] theorem State.setDecoder_result : (s.setDecoder i d).result = s.result := rfl
@[simp] theorem State.setDecoder_pending : (s.setDecoder i d).pending = s.pending := rfl

@[simp] theorem State.finishDecode_config : (s.finishDecode i r).config = s.config := rfl
@[simp] theorem State.finishDecode_encoder : (s.finishDecode i r).encoder = s.encoder := rfl
@[simp] theorem State.finishDecode_decoders : (s.finishDecode i r).decoders = store i r.1 s.decoders := rfl
@[simp] theorem State.finishDecode_result : (s.finishDecode i r).result = .decoded (resultOf r.2) := rfl
@[simp] theorem State.finishDecode_pending : (s.finishDecode i r).pending = s.pending := rfl

@[simp] theorem State.finishFrame_config : (s.finishFrame F).config = s.config := rfl
@[simp] theorem State.finishFrame_encoder : (s.finishFrame F).encoder = s.encoder.emit F := rfl
@[simp] theorem State.finishFrame_decoders : (s.finishFrame F).decoders = s.decoders := rfl
@[simp] theorem State.finishFrame_result : (s.finishFrame F).result = .frame F := rfl
@[simp] theorem State.finishFrame_pending : (s.finishFrame F).pending = s.pending := rfl

@[simp] theorem State.finishReset_config : (s.finishReset i).config = s.config := rfl
@[simp] theorem State.finishReset_encoder : (s.finishReset i).encoder = s.encoder := rfl
@[simp] theorem State.finishReset_decoders :
    (s.finishReset i).decoders = store i (s.decoder i).clear s.decoders := rfl
@[simp] theorem State.finishReset_result : (s.finishReset i).result = .done := rfl
@[simp] theorem State.finishReset_pending : (s.finishReset i).pending = s.pending := rfl

@[simp] theorem State.finishBeat_config : (s.finishBeat q).config = s.config := rfl
@[simp] theorem State.finishBeat_encoder : (s.finishBeat q).encoder = q.2.emit q.1 := rfl
@[simp] theorem State.finishBeat_decoders : (s.finishBeat q).decoders = s.decoders := rfl
@[simp] theorem State.finishBeat_result : (s.finishBeat q).result = .emitted q.1 := rfl
@[simp] theorem State.finishBeat_pending : (s.finishBeat q).pending = s.pending := rfl
end

/-! An update of another field leaves every decoder instance as it is. -/

section
variable (s : State) (j : Nat)

@[simp] theorem State.decoder_with_result (r : Result) : ({ s with result := r } : State).decoder j = s.decoder j := rfl
@[simp] theorem State.decoder_with_pending (p : List Transfer) :
    ({ s with pending := p } : State).decoder j = s.decoder j := rfl
@[simp] theorem State.decoder_finishFrame (F : Bytes) : (s.finishFrame F).decoder j = s.decoder j := rfl
@[simp] theorem State.decoder_finishBeat (q : Bytes × Encoder) : (s.finishBeat q).decoder j = s.decoder j := rfl
end

section
variable (e : Encoder) (bytes : Bytes)

@[simp] theorem Encoder.emit_run : (e.emit bytes).run = e.run := rfl
@[simp] theorem Encoder.emit_flushed : (e.emit bytes).flushed = e.flushed := rfl
@[simp] theorem Encoder.emit_sent : (e.emit bytes).sent = e.sent ++ bytes := rfl
@[simp] theorem Encoder.closeSegment_run : e.closeSegment.2.run = [] := rfl
@[simp] theorem Encoder.closeSegment_flushed : e.closeSegment.2.flushed = false := rfl
@[simp] theorem Encoder.closeSegment_sent : e.closeSegment.2.sent = e.sent := rfl
end

section
variable (d : Decoder)

@[simp] theorem Decoder.clear_dbuf : d.clear.dbuf = [] := rfl
@[simp] theorem Decoder.clear_regs : d.clear.regs = Regs.reset := rfl
@[simp] theorem Decoder.clear_delivered : d.clear.delivered = d.delivered := rfl
@[simp] theorem Decoder.clear_clear : d.clear.clear = d.clear := rfl
@[simp] theorem Decoder.bufAppend_dbuf (c : Bytes) : (d.bufAppend c).dbuf = d.dbuf ++ c := rfl
@[simp] theorem Decoder.feed_regs (c : Bytes) : (d.feed c).1.regs = d.regs.feed c := rfl
@[simp] theorem Decoder.feed_delivered (c : Bytes) : (d.feed c).1.delivered = d.delivered ++ (d.feed c).2 := rfl
@[simp] theorem Decoder.beat_regs (b : Byte) : (d.beat b).1.regs = (d.regs.beat b).1 := rfl
@[simp] theorem Decoder.beat_payloads (b : Byte) : (d.beat b).2 = (d.regs.beat b).2.toList := rfl
@[simp] theorem Decoder.beat_delivered (b : Byte) : (d.beat b).1.delivered = d.delivered ++ (d.beat b).2 := rfl
end

end Sys2Proof.Machine
end

