-- ==== Sys2Proof/Laws/Bank.lean ====
section
/-! SUPPORT. The laws of the bank of decoder instances: read after write, and the canonical form. They hold for every
list, in canonical form or not. -/

namespace Sys2Proof.Machine

theorem lookup_dropWhile_le {i k : Nat} (l : List (Nat × Decoder)) (h : i < k) :
    lookup k (l.dropWhile (fun p => decide (p.1 ≤ i))) = lookup k l := by
  induction l with
  | nil => rfl
  | cons p rest ih =>
    by_cases hp : p.1 ≤ i
    · have h1 : ¬ k < p.1 := by omega
      have h2 : k ≠ p.1 := by omega
      simp [hp, ih, lookup, h1, h2]
    · simp [hp]

theorem lookup_dropWhile_self {i k : Nat} (l : List (Nat × Decoder)) (h : k ≤ i) :
    lookup k (l.dropWhile (fun p => decide (p.1 ≤ i))) = Decoder.reset := by
  induction l with
  | nil => rfl
  | cons p rest ih =>
    by_cases hp : p.1 ≤ i
    · simpa [List.dropWhile_cons, hp] using ih
    · have h1 : k < p.1 := by omega
      simp [hp, lookup, h1]

/-- Reading the instance just written gives what was written. -/
@[simp] theorem lookup_store_same (i : Nat) (d : Decoder) (l : List (Nat × Decoder)) :
    lookup i (store i d l) = d := by
  induction l with
  | nil => by_cases h : d = Decoder.reset <;> simp [store, lookup, h]
  | cons p rest ih =>
    obtain ⟨j, e⟩ := p
    rcases Nat.lt_trichotomy i j with h | h | h
    · by_cases hd : d = Decoder.reset <;> simp [store, lookup, h, hd]
    · subst h
      by_cases hd : d = Decoder.reset
      · simpa [store, hd] using lookup_dropWhile_self rest (Nat.le_refl i)
      · simp [store, lookup, hd]
    · have h1 : ¬ i < j := by omega
      have h2 : i ≠ j := by omega
      simpa [store, lookup, h1, h2] using ih

/-- Writing one instance leaves every other as it was. -/
@[simp] theorem lookup_store_ne {i k : Nat} (hk : k ≠ i) (d : Decoder) (l : List (Nat × Decoder)) :
    lookup k (store i d l) = lookup k l := by
  induction l with
  | nil =>
    have : k < i ∨ i < k := by omega
    by_cases h : d = Decoder.reset
    · simp [store, h]
    · rcases this with h1 | h1
      · simp [store, lookup, h, h1]
      · have h2 : ¬ k < i := by omega
        simp [store, lookup, h, h2, hk]
  | cons p rest ih =>
    obtain ⟨j, e⟩ := p
    rcases Nat.lt_trichotomy i j with h | h | h
    · by_cases hd : d = Decoder.reset
      · simp [store, h, hd]
      · rcases Nat.lt_or_gt_of_ne hk with h1 | h1
        · have h2 : k < j := by omega
          simp [store, lookup, h, hd, h1, h2]
        · have h2 : ¬ k < i := by omega
          simp [store, lookup, h, hd, h2, hk]
    · subst h
      by_cases hd : d = Decoder.reset
      · rcases Nat.lt_or_gt_of_ne hk with h1 | h1
        · simpa [store, hd, lookup, h1] using lookup_dropWhile_self rest (Nat.le_of_lt h1)
        · have h2 : ¬ k < i := by omega
          simpa [store, hd, lookup, h2, hk] using lookup_dropWhile_le rest h1
      · simp [store, lookup, hd, hk]
    · have h1 : ¬ i < j := by omega
      have h2 : i ≠ j := by omega
      rcases Nat.lt_trichotomy k j with h3 | h3 | h3
      · simp [store, lookup, h1, h2, h3]
      · simp [store, lookup, h1, h2, h3]
      · have h4 : ¬ k < j := by omega
        have h5 : k ≠ j := by omega
        simpa [store, lookup, h1, h2, h4, h5] using ih

@[simp] theorem State.decoder_setDecoder_same (s : State) (i : Nat) (d : Decoder) :
    (s.setDecoder i d).decoder i = d := lookup_store_same i d s.decoders

@[simp] theorem State.decoder_setDecoder_ne (s : State) {i k : Nat} (h : k ≠ i) (d : Decoder) :
    (s.setDecoder i d).decoder k = s.decoder k := lookup_store_ne h d s.decoders

@[simp] theorem State.decoder_finishDecode_same (s : State) (i : Nat) (r : Decoder × List Bytes) :
    (s.finishDecode i r).decoder i = r.1 := lookup_store_same i r.1 s.decoders

@[simp] theorem State.decoder_finishDecode_ne (s : State) {i k : Nat} (h : k ≠ i) (r : Decoder × List Bytes) :
    (s.finishDecode i r).decoder k = s.decoder k := lookup_store_ne h r.1 s.decoders

@[simp] theorem State.decoder_finishReset_same (s : State) (i : Nat) :
    (s.finishReset i).decoder i = (s.decoder i).clear := lookup_store_same i _ s.decoders

@[simp] theorem State.decoder_finishReset_ne (s : State) {i k : Nat} (h : k ≠ i) :
    (s.finishReset i).decoder k = s.decoder k := lookup_store_ne h _ s.decoders

theorem dropWhile_le_head {i : Nat} (l : List (Nat × Decoder)) :
    ∀ p rest, l.dropWhile (fun p => decide (p.1 ≤ i)) = p :: rest → i < p.1 := by
  induction l with
  | nil => simp
  | cons q rest ih =>
    intro p rest' h
    by_cases hq : q.1 ≤ i
    · exact ih p rest' (by simpa [List.dropWhile_cons, hq] using h)
    · simp only [List.dropWhile_cons, hq, decide_false, Bool.false_eq_true, if_false, List.cons.injEq] at h
      rw [← h.1]; omega

/-- Writing the same value twice is writing it once. -/
@[simp] theorem store_store_same (i : Nat) (d : Decoder) (l : List (Nat × Decoder)) :
    store i d (store i d l) = store i d l := by
  induction l with
  | nil => by_cases h : d = Decoder.reset <;> simp [store, h]
  | cons p rest ih =>
    obtain ⟨j, e⟩ := p
    rcases Nat.lt_trichotomy i j with h | h | h
    · by_cases hd : d = Decoder.reset <;> simp [store, h, hd]
    · subst h
      by_cases hd : d = Decoder.reset
      · have key := dropWhile_le_head (i := i) rest
        simp only [store, Nat.lt_irrefl, if_false, if_true, hd]
        cases hl : rest.dropWhile (fun p => decide (p.1 ≤ i)) with
        | nil => simp [store]
        | cons q rest' =>
          have := key q rest' hl
          simp [store, this]
      · simp [store, hd]
    · have h1 : ¬ i < j := by omega
      have h2 : i ≠ j := by omega
      simpa [store, h1, h2] using ih

/-- What a written bank lists: the written instance, and entries it listed before. -/
theorem mem_store {i : Nat} {d : Decoder} {l : List (Nat × Decoder)} {p : Nat × Decoder}
    (h : p ∈ store i d l) : (p = (i, d) ∧ d ≠ Decoder.reset) ∨ p ∈ l := by
  induction l with
  | nil =>
    by_cases hd : d = Decoder.reset
    · simp [store, hd] at h
    · simp only [store, hd, if_false, List.mem_singleton] at h
      exact .inl ⟨h, hd⟩
  | cons q rest ih =>
    obtain ⟨j, e⟩ := q
    rcases Nat.lt_trichotomy i j with hij | hij | hij
    · by_cases hd : d = Decoder.reset
      · simp only [store, hij, hd, if_true] at h
        exact .inr h
      · simp only [store, hij, hd, if_true, if_false, List.mem_cons] at h
        rcases h with h | h | h
        · exact .inl ⟨h, hd⟩
        · exact .inr (by simp [h])
        · exact .inr (by simp [h])
    · subst hij
      by_cases hd : d = Decoder.reset
      · simp only [store, Nat.lt_irrefl, hd, if_true, if_false] at h
        exact .inr (List.mem_cons_of_mem _ ((List.dropWhile_sublist _).subset h))
      · simp only [store, Nat.lt_irrefl, hd, if_true, if_false, List.mem_cons] at h
        rcases h with h | h
        · exact .inl ⟨h, hd⟩
        · exact .inr (by simp [h])
    · have h1 : ¬ i < j := by omega
      have h2 : i ≠ j := by omega
      simp only [store, h1, h2, if_false, List.mem_cons] at h
      rcases h with h | h
      · exact .inr (by simp [h])
      · rcases ih h with h | h
        · exact .inl h
        · exact .inr (by simp [h])

theorem bankWf_cons {i : Nat} {d : Decoder} {rest : List (Nat × Decoder)} :
    bankWf ((i, d) :: rest) = true ↔ d ≠ Decoder.reset ∧ (∀ p ∈ rest, i < p.1) ∧ bankWf rest = true := by
  simp [bankWf, and_assoc]

theorem bankWf_dropWhile {f : Nat × Decoder → Bool} {l : List (Nat × Decoder)} (h : bankWf l = true) :
    bankWf (l.dropWhile f) = true := by
  induction l with
  | nil => rfl
  | cons p rest ih =>
    obtain ⟨j, e⟩ := p
    by_cases hf : f (j, e) = true
    · simpa [List.dropWhile_cons, hf] using ih (bankWf_cons.1 h).2.2
    · simpa [List.dropWhile_cons, hf] using h

/-- A write keeps the canonical form. -/
theorem bankWf_store (i : Nat) (d : Decoder) {l : List (Nat × Decoder)} (h : bankWf l = true) :
    bankWf (store i d l) = true := by
  induction l with
  | nil => by_cases hd : d = Decoder.reset <;> simp [store, bankWf, hd]
  | cons p rest ih =>
    obtain ⟨j, e⟩ := p
    obtain ⟨he, hr, hw⟩ := bankWf_cons.1 h
    rcases Nat.lt_trichotomy i j with hij | hij | hij
    · by_cases hd : d = Decoder.reset
      · simpa [store, hij, hd] using h
      · simp only [store, hij, hd, if_true, if_false]
        refine bankWf_cons.2 ⟨hd, ?_, h⟩
        rintro p hp
        rcases List.mem_cons.1 hp with rfl | hp
        · exact hij
        · exact Nat.lt_trans hij (hr p hp)
    · subst hij
      by_cases hd : d = Decoder.reset
      · simpa [store, hd] using bankWf_dropWhile hw
      · simpa [store, hd] using bankWf_cons.2 ⟨hd, hr, hw⟩
    · have h1 : ¬ i < j := by omega
      have h2 : i ≠ j := by omega
      simp only [store, h1, h2, if_false]
      refine bankWf_cons.2 ⟨he, ?_, ih hw⟩
      intro p hp
      rcases mem_store hp with ⟨rfl, -⟩ | hp
      · exact hij
      · exact hr p hp

/-- What holds of a reset decoder and of every listed one holds of every instance. -/
theorem lookup_induction {Q : Decoder → Prop} (hreset : Q Decoder.reset) {l : List (Nat × Decoder)}
    (hl : ∀ p ∈ l, Q p.2) (i : Nat) : Q (lookup i l) := by
  induction l with
  | nil => exact hreset
  | cons p rest ih =>
    obtain ⟨j, e⟩ := p
    unfold lookup
    split
    · exact hreset
    · split
      · exact hl (j, e) (by simp)
      · exact ih fun p hp => hl p (by simp [hp])

end Sys2Proof.Machine
end

