-- ==== Sys2Proof/Laws/Stream.lean ====
section
/-! SUPPORT. The cutting of a stream at its zero bytes, and what the drain of R100 does in terms of it. -/

namespace Sys2Proof.Machine

theorem delim_not_mem_cons {b : Byte} {N : Bytes} : delim ∉ b :: N ↔ delim ≠ b ∧ delim ∉ N := by
  simp

theorem segments_ne_nil (X : Bytes) : segments X ≠ [] := by
  cases X with
  | nil => simp [segments]
  | cons b rest =>
    unfold segments
    split
    · simp
    · split <;> simp

@[simp] theorem segments_delim_cons (X : Bytes) : segments (delim :: X) = [] :: segments X := by
  simp [segments]

theorem segments_cons {b : Byte} (hb : b ≠ delim) (X : Bytes) :
    segments (b :: X) = (b :: (segments X).headD []) :: (segments X).tail := by
  cases h : segments X with
  | nil => exact absurd h (segments_ne_nil X)
  | cons S Ss => simp [segments, hb, h]

/-- A zero-free sequence is one segment. -/
theorem segments_zeroFree {N : Bytes} (h : delim ∉ N) : segments N = [N] := by
  induction N with
  | nil => rfl
  | cons b N ih =>
    obtain ⟨hb, hN⟩ := delim_not_mem_cons.1 h
    simp [segments_cons (Ne.symm hb), ih hN]

/-- The first zero byte ends the first segment. -/
theorem segments_append_delim {N : Bytes} (h : delim ∉ N) (X : Bytes) :
    segments (N ++ delim :: X) = N :: segments X := by
  induction N with
  | nil => simp
  | cons b N ih =>
    obtain ⟨hb, hN⟩ := delim_not_mem_cons.1 h
    simp [segments_cons (Ne.symm hb), ih hN]

theorem frames_zeroFree {N : Bytes} (h : delim ∉ N) : frames N = [] := by
  simp [frames, segments_zeroFree h]

theorem residue_zeroFree {N : Bytes} (h : delim ∉ N) : residue N = N := by
  simp [residue, segments_zeroFree h]

theorem frames_append_delim {N : Bytes} (h : delim ∉ N) (X : Bytes) :
    frames (N ++ delim :: X) = (N ++ [delim]) :: frames X := by
  simp [frames, segments_append_delim h, List.dropLast_cons_of_ne_nil (segments_ne_nil X)]

theorem residue_append_delim {N : Bytes} (h : delim ∉ N) (X : Bytes) :
    residue (N ++ delim :: X) = residue X := by
  rw [residue, segments_append_delim h, residue]
  cases hX : segments X with
  | nil => exact absurd hX (segments_ne_nil X)
  | cons S Ss => rfl

/-- Every sequence is zero-free or has a first zero byte. -/
theorem exists_first_zero (X : Bytes) :
    delim ∉ X ∨ ∃ N Y, X = N ++ delim :: Y ∧ delim ∉ N := by
  induction X with
  | nil => simp
  | cons b X ih =>
    by_cases hb : b = delim
    · exact .inr ⟨[], X, by simp [hb], by simp⟩
    · rcases ih with h | ⟨N, Y, rfl, hN⟩
      · exact .inl (by simp [h, Ne.symm hb])
      · exact .inr ⟨b :: N, Y, by simp, by simp [hN, Ne.symm hb]⟩

theorem indexOfZero_zeroFree {N : Bytes} (h : delim ∉ N) : indexOfZero N = none := by
  induction N with
  | nil => rfl
  | cons b N ih =>
    obtain ⟨hb, hN⟩ := delim_not_mem_cons.1 h
    simp [indexOfZero, Ne.symm hb, ih hN]

theorem indexOfZero_append_delim {N : Bytes} (h : delim ∉ N) (X : Bytes) :
    indexOfZero (N ++ delim :: X) = some N.length := by
  induction N with
  | nil => simp [indexOfZero]
  | cons b N ih =>
    obtain ⟨hb, hN⟩ := delim_not_mem_cons.1 h
    simp [indexOfZero, Ne.symm hb, ih hN]

theorem payloadsIn_append_delim {N : Bytes} (h : delim ∉ N) (X : Bytes) :
    payloadsIn (N ++ delim :: X) = (decodeFrame (N ++ [delim])).toList ++ payloadsIn X := by
  simp only [payloadsIn, frames_append_delim h, List.filterMap_cons]
  cases decodeFrame (N ++ [delim]) <;> simp

/-- Induction along a stream: a zero-free stream, and a span in front of a stream. -/
theorem stream_induction {Q : Bytes → Prop} (base : ∀ N, delim ∉ N → Q N)
    (step : ∀ N X, delim ∉ N → Q X → Q (N ++ delim :: X)) (X : Bytes) : Q X := by
  induction h : X.length using Nat.strong_induction_on generalizing X with
  | _ n ih =>
    rcases exists_first_zero X with hz | ⟨N, Y, rfl, hN⟩
    · exact base X hz
    · exact step N Y hN (ih Y.length (by simp at h; omega) Y rfl)

theorem residue_append (X Y : Bytes) : residue (X ++ Y) = residue (residue X ++ Y) := by
  induction X using stream_induction with
  | base N hN => rw [residue_zeroFree hN]
  | step N X hN ih => simpa [residue_append_delim hN] using ih

theorem residue_length_le (X : Bytes) : (residue X).length ≤ X.length := by
  induction X using stream_induction with
  | base N hN => rw [residue_zeroFree hN]
  | step N X hN ih => rw [residue_append_delim hN]; simp; omega

/-- The payloads of a stream, cut anywhere: those of the front, then those of what it leaves and the rest. -/
theorem payloadsIn_append (X Y : Bytes) : payloadsIn (X ++ Y) = payloadsIn X ++ payloadsIn (residue X ++ Y) := by
  induction X using stream_induction with
  | base N hN => simp [residue_zeroFree hN, payloadsIn, frames_zeroFree hN]
  | step N X hN ih => simp [residue_append_delim hN, payloadsIn_append_delim hN, ih]

theorem payloadsOf_resultOf (res : List Bytes) : payloadsOf (resultOf res) = res := by
  by_cases h : res = [] <;> simp [payloadsOf, resultOf, h]

/-- All that the drain does: it leaves the residue and collects the payloads of the well-formed spans. -/
theorem drain_eq (n : Nat) (d : Decoder) (res : List Bytes) (h : d.dbuf.length ≤ n) :
    drain n d res = ({ d with dbuf := residue d.dbuf }, res ++ payloadsIn d.dbuf) := by
  induction n generalizing d res with
  | zero =>
    have hd : d.dbuf = [] := List.length_eq_zero_iff.1 (by omega)
    simp [drain, hd, residue, payloadsIn, frames, segments]
    cases d; simp_all
  | succ n ih =>
    rcases exists_first_zero d.dbuf with hz | ⟨N, Y, hY, hN⟩
    · simp [drain, Decoder.bufFindZero, indexOfZero_zeroFree hz, residue_zeroFree hz, payloadsIn,
        frames_zeroFree hz]
    · have hlen : Y.length ≤ n := by
        have := congrArg List.length hY
        simp at this
        omega
      have htake : (N ++ delim :: Y).take (N.length + 1) = N ++ [delim] := by
        simp [List.take_append]
      have hdrop : (N ++ delim :: Y).drop (N.length + 1) = Y := by
        simp [List.drop_append]
      simp only [drain, Decoder.bufFindZero, Decoder.bufTakeFront, hY, indexOfZero_append_delim hN, htake, hdrop,
        residue_append_delim hN, payloadsIn_append_delim hN]
      cases hF : decodeFrame (N ++ [delim]) with
      | none => simp [ih { d with dbuf := Y } res hlen]
      | some P => simp [ih { d with dbuf := Y } (res ++ [P]) hlen]

/-- All that feeding a chunk does to one instance. -/
theorem Decoder.feed_eq (d : Decoder) (c : Bytes) :
    d.feed c =
      ({ dbuf := residue (d.dbuf ++ c)
         regs := d.regs.feed c
         delivered := d.delivered ++ payloadsIn (d.dbuf ++ c) }, payloadsIn (d.dbuf ++ c)) := by
  simp [Decoder.feed, drain_eq, Decoder.bufAppend]

end Sys2Proof.Machine
end

