-- ==== Sys2Proof/Laws/Ops.lean ====
section
/-! SUPPORT. For each shared operation, once, everything it can do: where it answers a next state, and which. -/

namespace Sys2Proof.Machine

theorem unlessRefused_next {r : Option Refusal} {t u : State} :
    unlessRefused r t = .next u ↔ r = none ∧ t = u := by
  cases r <;> simp [unlessRefused]

theorem unlessRefused_refused {r : Option Refusal} {t : State} {x : Refusal} :
    unlessRefused r t = .refused x ↔ r = some x := by
  cases r <;> simp [unlessRefused]

theorem unlessRefused_ne_fault {r : Option Refusal} {t : State} {f : Fault} :
    unlessRefused r t ≠ .fault f := nofun

theorem encRefusal_eq_none {s : State} {n : Nat} :
    encRefusal s n = none ↔ withinBound s.config.maxPayload n = true := by
  simp [encRefusal]

theorem addressRefusal_eq_none {s : State} {i : Nat} :
    addressRefusal s i = none ↔ hasInstance s.config.nDec i = true := by
  simp [addressRefusal]

theorem feedRefusal_eq_none {s : State} {i n : Nat} : feedRefusal s i n = none ↔ s.accepts i n := by
  unfold feedRefusal State.accepts
  cases hasInstance s.config.nDec i <;> cases withinBound s.config.maxChunkIn n <;>
    cases withinBound s.config.dbufCap ((s.decoder i).dbuf.length + n) <;> simp

/-- Feeding a chunk answers exactly this next state, exactly when it is accepted. -/
theorem feedChunk_next {i : Nat} {c : Bytes} {s t : State} :
    feedChunk i c s = .next t ↔ s.accepts i c.length ∧ s.finishDecode i ((s.decoder i).feed c) = t := by
  simp [feedChunk, unlessRefused_next, feedRefusal_eq_none]

/-- One byte through the register form answers exactly this next state, exactly when it is accepted. -/
theorem feedByte_next {i : Nat} {b : Byte} {s t : State} :
    feedByte i b s = .next t ↔ s.accepts i 1 ∧ s.finishDecode i ((s.decoder i).beat b) = t := by
  simp [feedByte, unlessRefused_next, feedRefusal_eq_none]

theorem withinBound_mono {cap : Option Nat} {m n : Nat} (hmn : m ≤ n) (h : withinBound cap n = true) :
    withinBound cap m = true := by
  cases cap with
  | none => rfl
  | some k => simp only [withinBound, decide_eq_true_eq] at h ⊢; omega

/-- Where `n` bytes are accepted, fewer are. -/
theorem State.accepts_mono {s : State} {i m n : Nat} (hmn : m ≤ n) (h : s.accepts i n) : s.accepts i m :=
  ⟨h.1, withinBound_mono hmn h.2.1, withinBound_mono (by omega) h.2.2⟩

/-- The three cases of closing a segment. -/
theorem Encoder.closeSegment_bytes (e : Encoder) :
    (e.run ≠ [] ∧ e.closeSegment.1 = blockOf e.run) ∨
    (e.run = [] ∧ e.flushed = false ∧ e.closeSegment.1 = [codeEmpty]) ∨
    (e.run = [] ∧ e.flushed = true ∧ e.closeSegment.1 = []) := by
  unfold Encoder.closeSegment
  by_cases hr : e.run = [] <;> cases hf : e.flushed <;> simp [hr]

/-- The three cases of a pushed byte. -/
theorem Encoder.push_cases (e : Encoder) (b : Byte) :
    (b = delim ∧ e.push b = e.closeSegment) ∨
    (b ≠ delim ∧ e.run.length + 1 = maxChunk ∧
      e.push b = (codeFull :: (e.run ++ [b]), { e with run := [], flushed := true })) ∨
    (b ≠ delim ∧ e.run.length + 1 ≠ maxChunk ∧ e.push b = ([], { e with run := e.run ++ [b] })) := by
  unfold Encoder.push
  by_cases hb : b = delim
  · simp [hb]
  · by_cases hl : e.run.length + 1 = maxChunk <;> simp [hb, hl]

/-- The three cases of a byte over the registers: a delimiter, a data byte, a code byte. -/
theorem Regs.beat_cases (r : Regs) (b : Byte) :
    (b = delim ∧ r.beat b = (Regs.reset, r.payload)) ∨
    (b ≠ delim ∧ 0 < r.rem ∧ r.beat b = ({ r with out := r.out ++ [b], rem := r.rem - 1 }, none)) ∨
    (b ≠ delim ∧ r.rem = 0 ∧
      r.beat b = ({ code := b, rem := b.toNat - 1,
                    out := if r.code ≠ 0x00#8 ∧ r.code ≠ codeFull then r.out ++ [delim] else r.out }, none)) := by
  unfold Regs.beat Regs.body
  by_cases hb : b = delim
  · simp [hb]
  · by_cases hr : 0 < r.rem
    · simp [hb, hr]
    · have : r.rem = 0 := by omega
      simp [hb, this]

theorem Regs.feed_append (r : Regs) (c d : Bytes) : r.feed (c ++ d) = (r.feed c).feed d := by
  simp [Regs.feed]

/-- A zero-free chunk drives the registers through `body` alone. -/
theorem Regs.feed_zeroFree (r : Regs) {c : Bytes} (h : delim ∉ c) : r.feed c = c.foldl Regs.body r := by
  induction c generalizing r with
  | nil => rfl
  | cons b c ih =>
    obtain ⟨hb, hc⟩ := delim_not_mem_cons.1 h
    have : (r.beat b).1 = r.body b := by simp [Regs.beat, Ne.symm hb]
    simpa [Regs.feed, this] using ih (r.body b) hc

/-- Every operation is one of these: what `exec` can answer with a next state. -/
theorem exec_next_cases {x : Instr} {s t : State} (h : exec x s = .next t) :
    (∃ P, x = .enc P ∧ withinBound s.config.maxPayload P.length = true ∧
      t = s.finishFrame (encodeFrame P)) ∨
    (x = .encEnd ∧ t = s.finishBeat s.encoder.finish) ∨
    (∃ b, (x = .encPushZ ∧ b = delim ∨ x = .encPushNZ b) ∧ t = s.finishBeat (s.encoder.push b)) ∨
    (∃ i c, (x = .dec i c ∨ x = .decByteDelim i ∧ c = [delim] ∨ ∃ b, x = .decByteBody i b ∧ c = [b]) ∧
      s.accepts i c.length ∧ t = s.finishDecode i ((s.decoder i).feed c)) ∨
    (∃ i b, (x = .term i ∧ b = delim ∨ x = .len1 i ∧ b = codeEmpty ∨ x = .len255 i ∧ b = codeFull ∨
        x = .lenN i b ∨ x = .data i b) ∧
      s.accepts i 1 ∧ t = s.finishDecode i ((s.decoder i).beat b)) ∨
    (∃ i, x = .rst i ∧ hasInstance s.config.nDec i = true ∧ t = s.finishReset i) := by
  cases x with
  | enc P =>
    obtain ⟨h1, h2⟩ := unlessRefused_next.1 (show unlessRefused _ _ = _ from h)
    exact .inl ⟨P, rfl, encRefusal_eq_none.1 h1, h2.symm⟩
  | encEnd => cases h; exact .inr (.inl ⟨rfl, rfl⟩)
  | encPushZ => cases h; exact .inr (.inr (.inl ⟨delim, .inl ⟨rfl, rfl⟩, rfl⟩))
  | encPushNZ b => cases h; exact .inr (.inr (.inl ⟨b, .inr rfl, rfl⟩))
  | dec i c =>
    obtain ⟨h1, h2⟩ := feedChunk_next.1 h
    exact .inr (.inr (.inr (.inl ⟨i, c, .inl rfl, h1, h2.symm⟩)))
  | decByteDelim i =>
    obtain ⟨h1, h2⟩ := feedChunk_next.1 h
    exact .inr (.inr (.inr (.inl ⟨i, [delim], .inr (.inl ⟨rfl, rfl⟩), h1, h2.symm⟩)))
  | decByteBody i b =>
    obtain ⟨h1, h2⟩ := feedChunk_next.1 h
    exact .inr (.inr (.inr (.inl ⟨i, [b], .inr (.inr ⟨b, rfl, rfl⟩), h1, h2.symm⟩)))
  | term i =>
    obtain ⟨h1, h2⟩ := feedByte_next.1 h
    exact .inr (.inr (.inr (.inr (.inl ⟨i, delim, by simp, h1, h2.symm⟩))))
  | len1 i =>
    obtain ⟨h1, h2⟩ := feedByte_next.1 h
    exact .inr (.inr (.inr (.inr (.inl ⟨i, codeEmpty, by simp, h1, h2.symm⟩))))
  | len255 i =>
    obtain ⟨h1, h2⟩ := feedByte_next.1 h
    exact .inr (.inr (.inr (.inr (.inl ⟨i, codeFull, by simp, h1, h2.symm⟩))))
  | lenN i b =>
    obtain ⟨h1, h2⟩ := feedByte_next.1 h
    exact .inr (.inr (.inr (.inr (.inl ⟨i, b, by simp, h1, h2.symm⟩))))
  | data i b =>
    obtain ⟨h1, h2⟩ := feedByte_next.1 h
    exact .inr (.inr (.inr (.inr (.inl ⟨i, b, by simp, h1, h2.symm⟩))))
  | rst i =>
    obtain ⟨h1, h2⟩ := unlessRefused_next.1 (show unlessRefused _ _ = _ from h)
    exact .inr (.inr (.inr (.inr (.inr ⟨i, rfl, addressRefusal_eq_none.1 h1, h2.symm⟩))))

/-- A run of `n + 1` steps whose first step goes to `t` is the run of `n` steps from `t`. -/
theorem run_succ {s t : State} (n : Nat) (h : step s = .next t) :
    Host.Core.run Sys2Proof.core (n + 1) s = Host.Core.run Sys2Proof.core n t := by
  have h' : Sys2Proof.core.step s = .next t := h
  simp only [Host.Core.run, h']

/-- All that a step can do. -/
theorem step_next_cases {s t : State} (h : step s = .next t) :
    (s.pending = [] ∧ t = s) ∨
    ∃ w rest, s.pending = w :: rest ∧ exec (decode w) { s with pending := rest } = .next t := by
  unfold step at h
  split at h
  · next hp => cases h; exact .inl ⟨hp, rfl⟩
  · next w rest hp => exact .inr ⟨w, rest, hp, h⟩

end Sys2Proof.Machine
end

