-- ==== Sys2Proof/Laws/PerInstr.lean ====
section
/-! SUPPORT. Statements made of each operation as an operation. -/

namespace Sys2Proof.Laws.PortSelection

/-- The transfer that selects an operation uses the port and the format the table gives the operation (R70, R71). -/
def Statement (x : Instr) : Prop := (encode x).port = x.port ∧ (encode x).format = x.format

theorem enc (P : Bytes) : Statement (.enc P) := ⟨rfl, rfl⟩
theorem dec (i : Nat) (c : Bytes) : Statement (.dec i c) := ⟨rfl, rfl⟩
theorem rst (i : Nat) : Statement (.rst i) := ⟨rfl, rfl⟩
theorem encEnd : Statement .encEnd := ⟨rfl, rfl⟩
theorem encPushZ : Statement .encPushZ := ⟨rfl, rfl⟩
theorem encPushNZ (b : Byte) : Statement (.encPushNZ b) := ⟨rfl, rfl⟩
theorem decByteDelim (i : Nat) : Statement (.decByteDelim i) := ⟨rfl, rfl⟩
theorem decByteBody (i : Nat) (b : Byte) : Statement (.decByteBody i b) := ⟨rfl, rfl⟩
theorem term (i : Nat) : Statement (.term i) := ⟨rfl, rfl⟩
theorem len1 (i : Nat) : Statement (.len1 i) := ⟨rfl, rfl⟩
theorem len255 (i : Nat) : Statement (.len255 i) := ⟨rfl, rfl⟩
theorem lenN (i : Nat) (code : Byte) : Statement (.lenN i code) := ⟨rfl, rfl⟩
theorem data (i : Nat) (b : Byte) : Statement (.data i b) := ⟨rfl, rfl⟩

end Sys2Proof.Laws.PortSelection
end

