-- ==== Sys2Proof/Tests/Slice0.lean ====
section
/-! SUPPORT. The model's own tests. Every expected value is copied from spec/ (95_test_vectors.md V<n>, 40_encoder.md R87,
41_decoder.md R102, the encodings of 30_encoding.md) or written out from a rule by hand. Then one witness for each
statement with hypotheses. -/

namespace Sys2Proof.Tests

open Sys2Proof.Machine

/-- The machine after reset but for instance `i`, whose buffer holds `B` in both forms. -/
def holding (i : Nat) (B : Bytes) : State :=
  State.reset.setDecoder i { dbuf := B, regs := Regs.ofBuffer B, delivered := [] }

/-- The machine after reset but for the encoder's registers. -/
def encoding (run : Bytes) (flushed : Bool) : State :=
  { State.reset with encoder := { run := run, flushed := flushed, sent := [] } }

/-- The machine after reset with every parameter finite. -/
def bounded : State :=
  { State.reset with config := { dbufCap := some 3, maxPayload := some 2, maxChunkIn := some 2, nDec := some 1 } }

/-- The same with the buffer of instance 0 at its capacity. -/
def boundedFull : State := { bounded with decoders := (holding 0 [0x04#8, 0x01#8, 0x02#8]).decoders }

/-- `n` copies of the byte `b`, the spec's `b*n`. -/
def rep (n : Nat) (b : Byte) : Bytes := List.replicate n b

/-- Does the outcome have this result, and instance `i` this buffer? -/
def gives (o : Host.Outcome State Fault Refusal) (r : Result) (i : Nat) (B : Bytes) : Bool :=
  match o with
  | .next t => decide (t.result = r) && decide ((t.decoder i).dbuf = B)
  | .fault _ => false
  | .refused _ => false

/-- Does the outcome have this result and these encoder registers? -/
def emits (o : Host.Outcome State Fault Refusal) (E run : Bytes) (flushed : Bool) : Bool :=
  match o with
  | .next t => decide (t.result = .emitted E) && decide (t.encoder = { run := run, flushed := flushed, sent := E })
  | .fault _ => false
  | .refused _ => false

/-- Does the outcome leave these registers in instance `i`, and this result? -/
def regsAre (o : Host.Outcome State Fault Refusal) (r : Option (List Bytes)) (i : Nat) (R : Regs) : Bool :=
  match o with
  | .next t => decide (t.result = .decoded r) && decide ((t.decoder i).regs = R)
  | .fault _ => false
  | .refused _ => false

/-- Is the outcome this refusal? -/
def refusedAs (o : Host.Outcome State Fault Refusal) (r : Refusal) : Bool :=
  match o with
  | .next _ => false
  | .fault _ => false
  | .refused x => decide (x = r)

/-! ## Well-formedness: one ill-formed term for each check -/

theorem test_wf_push_zero : (Instr.encPushNZ 0x00#8).wellFormed = false := by decide
theorem test_wf_body_zero : (Instr.decByteBody 2 0x00#8).wellFormed = false := by decide
theorem test_wf_lenN_one : (Instr.lenN 0 0x01#8).wellFormed = false := by decide
theorem test_wf_lenN_full : (Instr.lenN 0 0xFF#8).wellFormed = false := by decide
theorem test_wf_data_zero : (Instr.data 0 0x00#8).wellFormed = false := by decide
theorem test_wf_lenN_ends : (Instr.lenN 0 0x02#8).wellFormed = true ∧ (Instr.lenN 0 0xFE#8).wellFormed = true := by
  decide

/-! ## Decoding: words from R71, R72 and V17 -/

theorem test_decode_encEnd : decode (.encSymbol 0b100000000#9) = .encEnd := by decide
theorem test_decode_encEnd_ignores_b : decode (.encSymbol 0b110101011#9) = .encEnd := by decide
theorem test_decode_encPushZ : decode (.encSymbol 0b000000000#9) = .encPushZ := by decide
theorem test_decode_encPushNZ : decode (.encSymbol 0b000010001#9) = .encPushNZ 0x11#8 := by decide
theorem test_decode_delim : decode (.decSymbol 1 0b00000000#8) = .decByteDelim 1 := by decide
theorem test_decode_body : decode (.decSymbol 1 0b11111111#8) = .decByteBody 1 0xFF#8 := by decide
theorem test_decode_term : decode (.spanCode 1 0b00000000#8) = .term 1 := by decide
theorem test_decode_len1 : decode (.spanCode 1 0b00000001#8) = .len1 1 := by decide
theorem test_decode_len255 : decode (.spanCode 1 0b11111111#8) = .len255 1 := by decide
theorem test_decode_lenN : decode (.spanCode 1 0b11111110#8) = .lenN 1 0xFE#8 := by decide
theorem test_decode_data : decode (.spanData 1 0b00000001#8) = .data 1 0x01#8 := by decide
theorem test_decode_zero_at_data_position : decode (.spanData 1 0b00000000#8) = .decByteDelim 1 := by decide
theorem test_decode_enc : decode (.encWhole [0x11#8, 0x00#8]) = .enc [0x11#8, 0x00#8] := by decide
theorem test_decode_dec : decode (.decWhole 1 [0x00#8]) = .dec 1 [0x00#8] := by decide
theorem test_decode_rst : decode (.rstAssert 1) = .rst 1 := by decide
theorem test_tableWord_p :
    decodeTableWord 16 0x100 = some .encEnd ∧ decodeTableWord 9 0x000 = some .encPushZ ∧
      decodeTableWord 16 0x0FF = some (.encPushNZ 0xFF#8) := by decide
theorem test_tableWord_c :
    decodeTableWord 8 0x00 = some (.term 0) ∧ decodeTableWord 8 0x01 = some (.len1 0) ∧
      decodeTableWord 8 0xFF = some (.len255 0) ∧ decodeTableWord 8 0x80 = some (.lenN 0 0x80#8) := by decide
theorem test_tableWord_none :
    decodeTableWord 8 256 = none ∧ decodeTableWord 16 512 = none ∧ decodeTableWord 32 0 = none := by decide

/-! ## One operation each -/

/-- V1. -/
theorem test_enc_V1 :
    gives (exec (.enc [0x11#8, 0x00#8, 0x00#8, 0x00#8]) State.reset)
      (.frame [0x02#8, 0x11#8, 0x01#8, 0x01#8, 0x01#8, 0x00#8]) 0 [] = true := by decide

/-- R87, run of 254, zero, byte: the frame is also that of the run of 255 (V14). -/
theorem test_enc_V14 :
    encodeFrame (rep 254 0xAA#8 ++ [0x00#8, 0xBB#8]) = 0xFF#8 :: rep 254 0xAA#8 ++ [0x02#8, 0xBB#8, 0x00#8] ∧
    encodeFrame (rep 254 0xAA#8 ++ [0xBB#8]) = 0xFF#8 :: rep 254 0xAA#8 ++ [0x02#8, 0xBB#8, 0x00#8] := by
  decide +kernel

/-- R87: the empty payload, a single zero, the runs of 253, 254 and 509. -/
theorem test_enc_R87 :
    encodeFrame [] = [0x01#8, 0x00#8] ∧ encodeFrame [0x00#8] = [0x01#8, 0x01#8, 0x00#8] ∧
    encodeFrame (rep 253 0xAA#8) = 0xFE#8 :: rep 253 0xAA#8 ++ [0x00#8] ∧
    encodeFrame (rep 254 0xAA#8) = 0xFF#8 :: rep 254 0xAA#8 ++ [0x00#8] ∧
    encodeFrame (rep 509 0xAA#8) =
      0xFF#8 :: rep 254 0xAA#8 ++ 0xFF#8 :: rep 254 0xAA#8 ++ [0x02#8, 0xAA#8, 0x00#8] := by
  decide +kernel

/-- V2, second step. -/
theorem test_dec_V2 :
    gives (exec (.dec 0 [0x01#8, 0x01#8, 0x00#8]) (holding 0 [0x02#8, 0x11#8, 0x01#8]))
      (.decoded (some [[0x11#8, 0x00#8, 0x00#8, 0x00#8]])) 0 [] = true := by decide

/-- Program P3, first chunk: three malformed spans, then a well-formed one. -/
theorem test_dec_P3 :
    gives (exec (.dec 0 [0x05#8, 0x11#8, 0x22#8, 0x00#8, 0x00#8, 0x02#8, 0x11#8, 0x03#8, 0x22#8, 0x00#8, 0x02#8, 0x33#8,
      0x00#8]) State.reset) (.decoded (some [[0x33#8]])) 0 [] = true := by decide

/-- V13: the zero after a run of 254 is lost. -/
theorem test_dec_V13 :
    gives (exec (.dec 0 (0xFF#8 :: rep 254 0xAA#8 ++ [0x01#8, 0x00#8])) State.reset)
      (.decoded (some [rep 254 0xAA#8])) 0 [] = true := by decide +kernel

/-- R102 case g: an empty-payload span is a payload, and bytes after the last delimiter stay (program P2). -/
theorem test_dec_P2 :
    gives (exec (.dec 4 [0x02#8, 0x11#8, 0x00#8, 0x01#8, 0x00#8, 0x01#8, 0x01#8, 0x00#8, 0x03#8, 0x22#8]) State.reset)
      (.decoded (some [[0x11#8], [], [0x00#8]])) 4 [0x03#8, 0x22#8] = true := by decide

/-- V8: spans on both sides of the limits. -/
theorem test_decodeFrame_V8 :
    decodeFrame [0x00#8] = none ∧ decodeFrame [0x02#8, 0x00#8] = none ∧
    decodeFrame (0xFF#8 :: rep 253 0x55#8 ++ [0x00#8]) = none ∧
    decodeFrame (0xFF#8 :: rep 254 0x55#8 ++ [0x03#8, 0x66#8, 0x00#8]) = none ∧
    decodeFrame (0xFE#8 :: rep 253 0x55#8 ++ [0x02#8, 0x66#8, 0x00#8]) = some (rep 253 0x55#8 ++ [0x00#8, 0x66#8]) ∧
    decodeFrame (0xFF#8 :: rep 254 0xAA#8 ++ [0x01#8, 0x01#8, 0x00#8]) = some (rep 254 0xAA#8 ++ [0x00#8]) := by
  decide +kernel

/-- V11: the residue is discarded, not decoded. -/
theorem test_rst_V11 : gives (exec (.rst 1) (holding 1 [0x02#8, 0x11#8, 0x01#8])) .done 1 [] = true := by decide

/-- Program P6: a reset of instance 1 leaves instance 0. -/
theorem test_rst_other_instance :
    gives (exec (.rst 1) ((holding 0 [0x02#8, 0x11#8]).setDecoder 1 ((holding 1 [0x02#8]).decoder 1))) .done 0
      [0x02#8, 0x11#8] = true := by decide

/-- V12, beat 5. -/
theorem test_encEnd_V12 : emits (exec .encEnd (encoding [] false)) [0x01#8, 0x00#8] [] false = true := by decide

/-- V12b, beat 257, but for what was emitted before: the final chunk and the delimiter. -/
theorem test_encEnd_V12b : emits (exec .encEnd (encoding [0xBB#8] false)) [0x02#8, 0xBB#8, 0x00#8] [] false = true := by
  decide

/-- V12, beat 2. -/
theorem test_encPushZ_V12 : emits (exec .encPushZ (encoding [0x11#8] false)) [0x02#8, 0x11#8] [] false = true := by
  decide

/-- V12b, beat 255: nothing is emitted after a full block. -/
theorem test_encPushZ_V12b : emits (exec .encPushZ (encoding [] true)) [] [] false = true := by decide

/-- V12, beat 1. -/
theorem test_encPushNZ_V12 : emits (exec (.encPushNZ 0x11#8) State.reset) [] [0x11#8] false = true := by decide

/-- V12b, beat 254. -/
theorem test_encPushNZ_V12b :
    emits (exec (.encPushNZ 0xAA#8) (encoding (rep 253 0xAA#8) false)) (0xFF#8 :: rep 254 0xAA#8) [] true = true := by
  decide +kernel

/-- R118, example. -/
theorem test_decByteDelim_R118 :
    gives (exec (.decByteDelim 0) (holding 0 [0x02#8, 0x11#8])) (.decoded (some [[0x11#8]])) 0 [] = true := by decide

/-- R102 case c. -/
theorem test_decByteDelim_empty : gives (exec (.decByteDelim 0) State.reset) (.decoded none) 0 [] = true := by decide

/-- V12c, beat 2. -/
theorem test_decByteBody_V12c :
    gives (exec (.decByteBody 0 0x11#8) (holding 0 [0x02#8])) (.decoded none) 0 [0x02#8, 0x11#8] = true := by decide

/-- V12c, beat 6. -/
theorem test_term_V12c :
    regsAre (exec (.term 0) (holding 0 [0x02#8, 0x11#8, 0x01#8, 0x01#8, 0x01#8]))
      (some [[0x11#8, 0x00#8, 0x00#8, 0x00#8]]) 0 { code := 0x00#8, rem := 0, out := [] } = true := by decide

/-- V12d, beat 5: the delimiter inside a block drops the span. -/
theorem test_term_V12d :
    regsAre (exec (.term 0) (holding 0 [0x02#8, 0x11#8, 0x03#8, 0x22#8])) none 0
      { code := 0x00#8, rem := 0, out := [] } = true := by decide

/-- V12c, beat 3: the implied zero of the block before. -/
theorem test_len1_V12c :
    regsAre (exec (.len1 0) (holding 0 [0x02#8, 0x11#8])) none 0
      { code := 0x01#8, rem := 0, out := [0x11#8, 0x00#8] } = true := by decide

/-- R120 by hand: code 255 after an empty block, as in V3. -/
theorem test_len255_V3 :
    regsAre (exec (.len255 0) (holding 0 [0x01#8])) none 0 { code := 0xFF#8, rem := 254, out := [0x00#8] } = true := by
  decide

/-- V12d, beat 3. -/
theorem test_lenN_V12d :
    regsAre (exec (.lenN 0 0x03#8) (holding 0 [0x02#8, 0x11#8])) none 0
      { code := 0x03#8, rem := 2, out := [0x11#8, 0x00#8] } = true := by decide

/-- R120 by hand: no implied zero after code 255, as in V4. -/
theorem test_lenN_after_full :
    regsAre (exec (.lenN 0 0x02#8) (holding 0 (0xFF#8 :: rep 254 0x55#8))) none 0
      { code := 0x02#8, rem := 1, out := rep 254 0x55#8 } = true := by decide +kernel

/-- V12d, beat 4. -/
theorem test_data_V12d :
    regsAre (exec (.data 0 0x22#8) (holding 0 [0x02#8, 0x11#8, 0x03#8])) none 0
      { code := 0x03#8, rem := 1, out := [0x11#8, 0x00#8, 0x22#8] } = true := by decide

/-- R10: the refusals beyond finite parameters. -/
theorem test_refusals :
    refusedAs (exec (.enc [0x01#8, 0x02#8, 0x03#8]) bounded) .payloadTooLong = true ∧
    refusedAs (exec (.dec 0 [0x01#8, 0x02#8, 0x03#8]) bounded) .chunkTooLong = true ∧
    refusedAs (exec (.dec 1 []) bounded) .absentInstance = true ∧
    refusedAs (exec (.data 0 0x05#8) boundedFull) .bufferFull = true := by decide

/-- The first step after reset runs the table word that is put in its way. -/
theorem test_first_step :
    regsAre (step (State.reset.withFetchWord 8 0x01)) none 0 { code := 0x01#8, rem := 0, out := [] } = true ∧
    emits (step (State.reset.withFetchWord 16 0x100)) [0x01#8, 0x00#8] [] false = true := by decide

/-! ## Witnesses: a state and operands that meet the hypotheses of each statement -/

theorem witness_ResetAndRst : hasInstance bounded.config.nDec 0 = true := by decide

theorem witness_RstDiscards :
    hasInstance (holding 0 [0x02#8, 0x11#8]).config.nDec 0 = true ∧ State.reset.accepts 0 1 ∧
      (State.reset.decoder 0).dbuf = [] ∧ (State.reset.decoder 0).regs = Regs.reset := by decide

theorem witness_EncReturnsTheFrame :
    withinBound bounded.config.maxPayload [0x01#8, 0x02#8].length = true ∧
      withinBound bounded.config.maxPayload [0x01#8, 0x02#8, 0x03#8].length = false := by decide

theorem witness_ChunksAreCutGreedily : rep 254 0xAA#8 ≠ [] := by decide

theorem witness_FrameHasItsOnlyZero : withinBound bounded.config.maxPayload [0x00#8].length = true := by decide

theorem witness_FrameForgets :
    ((([] : Bytes) = [] ∨ ∃ Q', ([] : Bytes) = Q' ++ [delim]) ∧ delim ∉ rep 254 0xAA#8 ∧
      offending (rep 254 0xAA#8) = true ∧ 0xBB#8 ≠ delim) := by
  refine ⟨.inl rfl, ?_, ?_, ?_⟩ <;> decide +kernel

theorem witness_FrameForgets_after_zero : ∃ Q', [0x11#8, 0x00#8] = Q' ++ [delim] := ⟨[0x11#8], by decide⟩

theorem witness_EncPush :
    (encoding [0x11#8] false).encoder.run ≠ [] ∧
    ((encoding [] false).encoder.run = [] ∧ (encoding [] false).encoder.flushed = false) ∧
    ((encoding [] true).encoder.run = [] ∧ (encoding [] true).encoder.flushed = true) ∧
    (encoding (rep 253 0xAA#8) false).encoder.run.length + 1 = 254 ∧
    (encoding (rep 252 0xAA#8) false).encoder.run.length + 1 ≠ 254 ∧ 0xAA#8 ≠ 0x00#8 := by decide +kernel

theorem witness_EncBeats :
    (encoding [] false).encoder.run = [] ∧ (encoding [] false).encoder.flushed = false ∧
    ({ encoding [] false with pending := encBeats [0x11#8, 0x00#8] } : State).pending =
      encBeats [0x11#8, 0x00#8] ++ [] ∧
    [0x22#8] = (segments [0x11#8, 0x00#8, 0x22#8]).getLastD [] := by decide

theorem witness_EncoderHoldsBack :
    (encoding (rep 253 0xAA#8) false).encoder.invariant = true ∧
    ∃ t, exec (.encPushNZ 0xAA#8) (encoding (rep 253 0xAA#8) false) = .next t :=
  ⟨by decide +kernel, _, rfl⟩

theorem witness_DecIsTheClosedForm :
    bounded.accepts 0 [0x02#8, 0x11#8].length ∧ delim ∉ (bounded.decoder 0).dbuf := by decide

theorem witness_ChunkWithoutZero :
    (holding 0 [0x02#8]).accepts 0 [0x11#8].length ∧ delim ∉ ((holding 0 [0x02#8]).decoder 0).dbuf ∧
      delim ∉ [0x11#8] ∧ delim ∉ ([] : Bytes) := by decide

theorem witness_SpanForms : delim ∉ [0x02#8, 0x11#8] ∧ 3 * ([0x02#8, 0x11#8].length + 1) ≤ 9 := by decide

theorem witness_WellFormedSpan : delim ∉ [0x02#8, 0x11#8, 0x01#8] ∧
    blocksOf [0x02#8, 0x11#8, 0x01#8] = some [(0x02#8, [0x11#8]), (0x01#8, [])] := by
  decide

theorem witness_MalformedCauses :
    (∀ p ∈ [((0x02#8 : Byte), [(0x11#8 : Byte)])], p.2.length + 1 = p.1.toNat) ∧
    [0x02#8, 0x11#8, 0x03#8, 0x22#8] =
      ([((0x02#8 : Byte), [(0x11#8 : Byte)])].map (fun p => p.1 :: p.2)).flatten ++ 0x03#8 :: [0x22#8] ∧
    delim ∉ [0x02#8, 0x11#8, 0x03#8, 0x22#8] ∧ [0x22#8].length + 2 = (0x03#8).toNat ∧
    [0x22#8].length + 2 < (0x04#8).toNat := by decide

theorem witness_MalformedSpanLeavesNoTrace :
    delim ∉ ((holding 0 [0x05#8]).decoder 0).dbuf ∧ delim ∉ [0x11#8] ∧
    decodeFrame (((holding 0 [0x05#8]).decoder 0).dbuf ++ [0x11#8] ++ [delim]) = none ∧
    (holding 0 [0x05#8]).accepts 0 ([0x11#8] ++ [delim] ++ [0x01#8, 0x00#8]).length := by decide

theorem witness_DecDistributes : bounded.accepts 0 ([0x02#8] ++ [0x11#8]).length := by decide

/-- `MAX_CHUNK_IN` is 2 and the stream has 3 bytes, which fit the capacity of 3. -/
theorem witness_Fragmentation :
    ({ bounded with pending := [.decWhole 0 [0x02#8, 0x11#8], .decWhole 0 [], .decWhole 0 [0x00#8], .rstAssert 0] } :
      State).pending = [[0x02#8, 0x11#8], [], [0x00#8]].map (Transfer.decWhole 0) ++ [.rstAssert 0] ∧
    hasInstance bounded.config.nDec 0 = true ∧
    (∀ c ∈ [[0x02#8, 0x11#8], [], [0x00#8]], withinBound bounded.config.maxChunkIn c.length = true) ∧
    withinBound bounded.config.dbufCap
      ((bounded.decoder 0).dbuf.length + [[0x02#8, 0x11#8], [], [0x00#8]].flatten.length) = true ∧
    delim ∉ (bounded.decoder 0).dbuf := by decide

/-- A stream of 4 bytes does not fit the capacity of 3, and each of its chunks fits at its turn. -/
theorem witness_Fragmentation_beyond_the_capacity :
    ∀ before c after, [[0x01#8, 0x00#8], [0x01#8, 0x00#8]] = before ++ c :: after →
      withinBound bounded.config.dbufCap
        ((residue ((bounded.decoder 0).dbuf ++ before.flatten)).length + c.length) = true
  | [], c, after, h => by obtain ⟨rfl, -⟩ := List.cons.inj h; decide
  | [b], c, after, h => by
    have hb : [0x01#8, 0x00#8] = b := (List.cons.inj h).1
    have hc : [0x01#8, 0x00#8] = c := (List.cons.inj (List.cons.inj h).2).1
    subst hb hc
    decide
  | _ :: _ :: before, c, after, h => by simp at h

theorem witness_DecOfEnc :
    (State.reset.decoder 0).dbuf = [] ∧
      State.reset.accepts 0 (encodeFrame (rep 254 0xAA#8 ++ [0x00#8])).length := by decide +kernel

theorem witness_RoundTrip :
    roundTrips [0x11#8, 0x00#8] = true ∧ (State.reset.decoder 0).dbuf = [] ∧
    ∃ t, exec (.enc [0x11#8, 0x00#8]) State.reset = .next t ∧ t.result = .frame [0x02#8, 0x11#8, 0x01#8, 0x00#8] ∧
      t.accepts 0 [0x02#8, 0x11#8, 0x01#8, 0x00#8].length :=
  ⟨by decide, by decide, _, rfl, by decide, by decide⟩

theorem witness_RoundTrip_kinds : (rep 254 0x00#8).length < 255 ∧ delim ∉ rep 255 0xAA#8 := by decide +kernel

theorem witness_ManyFrames :
    (State.reset.decoder 0).dbuf = [] ∧ State.reset.accepts 0 (([[0x11#8], []].map encodeFrame).flatten).length ∧
      ∀ P ∈ [[0x11#8], []], roundTrips P = true := by decide

theorem witness_Recovery :
    (State.reset.decoder 0).dbuf = [] ∧ (∃ M', [0x05#8, 0x11#8, 0x00#8] = M' ++ [delim]) ∧
    State.reset.accepts 0 ([0x05#8, 0x11#8, 0x00#8] ++ encodeFrame [0x11#8]).length ∧
    ∀ F ∈ frames [0x05#8, 0x11#8, 0x00#8], decodeFrame F = none :=
  ⟨by decide, ⟨[0x05#8, 0x11#8], by decide⟩, by decide, by decide⟩

theorem witness_DecByte :
    (holding 0 [0x02#8]).accepts 0 1 ∧ delim ∉ ((holding 0 [0x02#8]).decoder 0).dbuf ∧ 0x11#8 ≠ delim := by decide

theorem witness_CodeByte :
    (holding 0 [0x02#8, 0x11#8]).accepts 0 1 ∧ ((holding 0 [0x02#8, 0x11#8]).decoder 0).regs.rem = 0 ∧
      2 ≤ (0x02#8).toNat ∧ (0xFE#8).toNat ≤ 254 := by decide

theorem witness_DataAndTerm :
    (holding 0 [0x02#8]).accepts 0 1 ∧ 0 < ((holding 0 [0x02#8]).decoder 0).regs.rem ∧ 0x11#8 ≠ 0x00#8 ∧
    (((holding 0 [0x01#8]).decoder 0).regs.code ≠ 0#8 ∧ ((holding 0 [0x01#8]).decoder 0).regs.rem = 0) ∧
    (State.reset.decoder 0).regs.code = 0#8 ∧ ((holding 0 [0x02#8]).decoder 0).regs.rem ≠ 0 := by decide

theorem witness_BlockImpliesAZero :
    (bounded.decoder 0).regs.rem = 0 ∧ 0x02#8 ≠ 0#8 ∧ 0x01#8 ≠ 0#8 ∧ delim ∉ [0x11#8] ∧
    [0x11#8].length + 1 = (0x02#8).toNat ∧
    ({ bounded with pending := [.spanCode 0 0x02#8, .spanData 0 0x11#8, .spanCode 0 0x01#8] } : State).pending =
      .spanCode 0 0x02#8 :: ([0x11#8].map (Transfer.spanData 0) ++ .spanCode 0 0x01#8 :: []) ∧
    hasInstance bounded.config.nDec 0 = true ∧ withinBound bounded.config.maxChunkIn 1 = true ∧
    withinBound bounded.config.dbufCap ((bounded.decoder 0).dbuf.length + ([0x11#8].length + 2)) = true := by decide

theorem witness_BlockOfCode255 :
    delim ∉ rep 254 0x55#8 ∧ (rep 254 0x55#8).length + 1 = (0xFF#8).toNat := by decide +kernel

theorem witness_RegisterForm :
    delim ∉ ((holding 0 [0x02#8]).decoder 0).dbuf ∧
    ((holding 0 [0x02#8]).decoder 0).regs = Regs.ofBuffer ((holding 0 [0x02#8]).decoder 0).dbuf ∧ 0x11#8 ≠ delim ∧
    addressed (.decByteDelim 0) = some 0 ∧ ∃ t, exec (.decByteDelim 0) (holding 0 [0x02#8]) = .next t :=
  ⟨by decide, by decide, by decide, rfl, _, rfl⟩

theorem witness_DecBeats :
    ({ holding 0 [0x02#8] with pending := [.decSymbol 0 0x11#8, .decSymbol 0 0x00#8] } : State).pending =
      decBeats 0 [0x11#8, 0x00#8] ++ [] ∧
    (holding 0 [0x02#8]).accepts 0 [0x11#8, 0x00#8].length ∧
    delim ∉ ((holding 0 [0x02#8]).decoder 0).dbuf := by decide

theorem witness_DecOutSymbols :
    decOutSymbols 0x00#8 [0x11#8] ++ [] = decOutSymbols 0x00#8 [0x11#8] ++ ([] : List (BitVec 9)) := by decide

theorem witness_OperationsChangeOnly :
    (∃ t, exec (.rst 0) (holding 0 [0x02#8]) = .next t) ∧ ∃ t, exec (.enc []) State.reset = .next t :=
  ⟨⟨_, rfl⟩, ⟨_, rfl⟩⟩

theorem witness_Instances :
    addressed (.dec 0 [0x00#8]) = some 0 ∧ (encoding [0x11#8] false).config = State.reset.config ∧
    (encoding [0x11#8] false).decoder 0 = State.reset.decoder 0 ∧
    ∃ t, exec (.dec 0 [0x00#8]) State.reset = .next t :=
  ⟨rfl, rfl, rfl, _, rfl⟩

theorem witness_Commute :
    addressed (.dec 0 [0x02#8]) ≠ addressed (.dec 1 [0x00#8]) ∧
    ∃ s1 s2, exec (.dec 0 [0x02#8]) State.reset = .next s1 ∧ exec (.dec 1 [0x00#8]) s1 = .next s2 :=
  ⟨by decide, _, _, rfl, rfl⟩

/-- `ENC` inside an open byte-serial payload, and the beat that closes it. -/
theorem witness_Commute_enc :
    addressed (.enc [0x11#8]) = none ∧ addressed .encEnd = none ∧ (∃ P, Instr.enc [0x11#8] = .enc P) ∧
    ∃ s1 s2, exec (.enc [0x11#8]) (encoding [0x22#8] false) = .next s1 ∧ exec .encEnd s1 = .next s2 :=
  ⟨rfl, rfl, ⟨_, rfl⟩, _, _, rfl, rfl⟩

theorem witness_Refused :
    State.acceptsInstr bounded (.dec 0 [0x01#8, 0x02#8]) ∧ ¬ State.acceptsInstr bounded (.rst 1) :=
  ⟨by change State.accepts _ _ _; decide, by change ¬ _ = true; decide⟩

theorem witness_NoOperationEverStops :
    State.reset.config = Config.unbounded ∧
      refusedAs (step { bounded with pending := [.rstAssert 1] }) .absentInstance = true := by decide

theorem witness_Outputs : ∃ t, step { State.reset with pending := [.encSymbol 0x100#9] } = .next t := ⟨_, rfl⟩

theorem witness_EveryStep :
    (holding 0 [0x02#8, 0x11#8]).invariant = true ∧
      gives (step { holding 0 [0x02#8, 0x11#8] with pending := [.decSymbol 0 0x00#8] })
        (.decoded (some [[0x11#8]])) 0 [] = true := by decide

theorem witness_DecodeOfEncode : (Instr.lenN 0 0xFE#8).wellFormed = true ∧ (Instr.data 0 0x01#8).wellFormed = true := by
  decide

theorem witness_EncodeOfDecode :
    (0x100#9).toNat ≤ 256 ∧ Transfer.spanData 0 0x01#8 ≠ .spanData 0 0x00#8 := by decide

theorem witness_StepRuns :
    ({ State.reset with pending := [encode (.data 0 0x01#8)] } : State).pending = encode (.data 0 0x01#8) :: [] ∧
      (Instr.data 0 0x01#8).wellFormed = true ∧ State.reset.pending = [] := by decide

end Sys2Proof.Tests
end

section
/-! The parameters of R10 as what decides whether an operation has a step, and the step that runs it (R16, R47, R48). -/

namespace Sys2Proof.Machine

/-! ## Refusals beyond a parameter -/

/-- The refusals that name a parameter of R10. -/
def Refusal.beyondParameter (r : Refusal) : Prop :=
  r = .payloadTooLong ∨ r = .chunkTooLong ∨ r = .bufferFull ∨ r = .absentInstance

theorem encRefusal_eq_some {s : State} {n : Nat} {r : Refusal} (h : encRefusal s n = some r) :
    r = .payloadTooLong := by
  by_cases hn : withinBound s.config.maxPayload n = true
  · rw [encRefusal_eq_none.2 hn] at h
    cases h
  · simpa [encRefusal, hn] using h.symm

theorem addressRefusal_eq_some {s : State} {i : Nat} {r : Refusal} (h : addressRefusal s i = some r) :
    r = .absentInstance := by
  by_cases hi : hasInstance s.config.nDec i = true
  · rw [addressRefusal_eq_none.2 hi] at h
    cases h
  · simpa [addressRefusal, hi] using h.symm

theorem feedRefusal_eq_some {s : State} {i n : Nat} {r : Refusal} (h : feedRefusal s i n = some r) :
    r = .absentInstance ∨ r = .chunkTooLong ∨ r = .bufferFull := by
  unfold feedRefusal at h
  split at h
  · exact .inl (Option.some.inj h).symm
  split at h
  · exact .inr (.inl (Option.some.inj h).symm)
  split at h
  · exact .inr (.inr (Option.some.inj h).symm)
  · cases h

/-- The refusal of an operation, if its operands are beyond a parameter: `exec_eq_unlessRefused` ties it to `exec`. -/
def operandRefusal (s : State) : Instr → Option Refusal
  | .enc P => encRefusal s P.length
  | .encEnd | .encPushZ | .encPushNZ _ => none
  | .rst i => addressRefusal s i
  | .dec i c => feedRefusal s i c.length
  | .decByteDelim i | .decByteBody i _ => feedRefusal s i 1
  | .term i | .len1 i | .len255 i | .lenN i _ | .data i _ => feedRefusal s i 1

/-- Every operation has a next state to go to, and goes there unless its operands are refused. -/
theorem exec_eq_unlessRefused (x : Instr) (s : State) : ∃ t, exec x s = unlessRefused (operandRefusal s x) t := by
  cases x <;> exact ⟨_, rfl⟩

theorem operandRefusal_eq_none {s : State} {x : Instr} : operandRefusal s x = none ↔ s.acceptsInstr x := by
  cases x with
  | enc P => exact encRefusal_eq_none
  | encEnd | encPushZ | encPushNZ => exact iff_of_true rfl trivial
  | rst i => exact addressRefusal_eq_none
  | dec | decByteDelim | decByteBody | term | len1 | len255 | lenN | data => exact feedRefusal_eq_none

theorem operandRefusal_beyondParameter {s : State} {x : Instr} {r : Refusal} (h : operandRefusal s x = some r) :
    r.beyondParameter := by
  cases x with
  | enc P => exact .inl (encRefusal_eq_some h)
  | encEnd | encPushZ | encPushNZ => cases h
  | rst i => exact .inr (.inr (.inr (addressRefusal_eq_some h)))
  | dec | decByteDelim | decByteBody | term | len1 | len255 | lenN | data =>
    rcases feedRefusal_eq_some h with h | h | h <;> simp [Refusal.beyondParameter, h]

/-- An operation whose operands are accepted has a step. -/
theorem exec_next_of_acceptsInstr {x : Instr} {s : State} (h : s.acceptsInstr x) : ∃ t, exec x s = .next t := by
  obtain ⟨t, ht⟩ := exec_eq_unlessRefused x s
  exact ⟨t, by rw [ht, operandRefusal_eq_none.2 h, unlessRefused]⟩

/-- An operation is refused for nothing but a parameter. -/
theorem exec_refused_beyondParameter {x : Instr} {s : State} {r : Refusal} (h : exec x s = .refused r) :
    r.beyondParameter := by
  obtain ⟨t, ht⟩ := exec_eq_unlessRefused x s
  exact operandRefusal_beyondParameter (unlessRefused_refused.1 (ht ▸ h))

/-- An operation whose operands are not accepted is refused. -/
theorem exec_refused_of_not_acceptsInstr {x : Instr} {s : State} (h : ¬ s.acceptsInstr x) :
    ∃ r, exec x s = .refused r := by
  obtain ⟨t, ht⟩ := exec_eq_unlessRefused x s
  obtain ⟨r, hr⟩ := Option.ne_none_iff_exists'.1 (mt operandRefusal_eq_none.1 h)
  exact ⟨r, by rw [ht, hr, unlessRefused]⟩

/-- Settles O38: `exec` is `unlessRefused` of the refusal of the operands. -/
theorem refusedExactlyBeyondTheParameters : Obligations.RefusedExactlyBeyondTheParameters := by
  intro x s
  refine ⟨exec_next_of_acceptsInstr, fun h => ?_⟩
  obtain ⟨r, hr⟩ := exec_refused_of_not_acceptsInstr h
  exact ⟨r, hr, exec_refused_beyondParameter hr⟩

/-! ## The decoded operation -/

theorem step_of_pending_cons {s : State} {t : Transfer} {rest : List Transfer} (h : s.pending = t :: rest) :
    step s = exec (decode t) { s with pending := rest } := by
  simp only [step, h]

theorem step_of_pending_nil {s : State} (h : s.pending = []) : step s = .next s := by
  simp only [step, h]

end Sys2Proof.Machine

namespace Sys2Proof

/-- The bit `end` of a symbol that does not end the payload is clear, so the row `ENC.END` does not match it. -/
theorem encSymbolOf_false_and_end_ne (b : Byte) : encSymbolOf false b &&& 0x100#9 ≠ 0x100#9 := by
  intro h
  have hend := congrArg (·.getLsbD 8) h
  rw [encSymbolOf, BitVec.getLsbD_and, BitVec.getLsbD_append] at hend
  simp at hend

@[simp] theorem setWidth_encSymbolOf (e : Bool) (b : Byte) : (encSymbolOf e b).setWidth 8 = b :=
  BitVec.setWidth_append_eq_right

theorem decodeEncSymbol_encSymbolOf_false {b : Byte} (hb : b ≠ delim) :
    decodeEncSymbol (encSymbolOf false b) = .encPushNZ b := by
  have hz : encSymbolOf false b &&& 0x1FF#9 ≠ 0x000#9 := by
    intro h
    have h0 : encSymbolOf false b = 0#9 := (BitVec.and_allOnes (x := encSymbolOf false b)).symm.trans h
    exact hb (by simpa [h0, delim] using (setWidth_encSymbolOf false b).symm)
  simp [decodeEncSymbol, encSymbolOf_false_and_end_ne, hz]

/-- A mask of eight ones compares the whole byte. -/
@[simp] theorem byte_and_mask (b : Byte) : b &&& 0xFF#8 = b := BitVec.and_allOnes

theorem decodeDecSymbol_of_ne {i : Nat} {b : Byte} (hb : b ≠ delim) : decodeDecSymbol i b = .decByteBody i b := by
  rw [decodeDecSymbol, byte_and_mask]
  exact if_neg hb

/-- The last row of format C catches the codes between those of the rows before it (R62). -/
theorem decodeSpanCode_of_between {i : Nat} {code : Byte} (h : 2 ≤ code.toNat ∧ code.toNat ≤ 254) :
    decodeSpanCode i code = .lenN i code := by
  have h0 : code ≠ 0x00#8 := by rintro rfl; simp at h
  have h1 : code ≠ 0x01#8 := by rintro rfl; simp at h
  have h255 : code ≠ 0xFF#8 := by rintro rfl; simp at h
  simp only [decodeSpanCode, byte_and_mask, if_neg h0, if_neg h1, if_neg h255]

theorem decodeSpanData_of_ne {i : Nat} {b : Byte} (hb : b ≠ delim) : decodeSpanData i b = .data i b :=
  if_neg hb

/-- Decoding gives an encoded well-formed operation back: an operation without a byte operand is its own row, and a
byte operand within its constraint is caught by no row before its own (R72). -/
theorem decode_encode {x : Instr} (h : x.wellFormed = true) : decode (encode x) = x := by
  cases x with
  | enc | dec | rst => rfl
  | encEnd | encPushZ | decByteDelim | term | len1 | len255 => rfl
  | encPushNZ b => exact decodeEncSymbol_encSymbolOf_false (of_decide_eq_true h)
  | decByteBody i b => exact decodeDecSymbol_of_ne (of_decide_eq_true h)
  | lenN i code => exact decodeSpanCode_of_between (of_decide_eq_true h)
  | data i b => exact decodeSpanData_of_ne (of_decide_eq_true h)

end Sys2Proof

namespace Sys2Proof.Machine

/-- Settles O47: the step's own equations, and for an encoded operation the round trip of the decoder. -/
theorem stepRunsTheDecodedOperation : Obligations.StepRunsTheDecodedOperation := by
  refine ⟨fun s t rest => step_of_pending_cons, fun s x rest hx hp => ?_, fun s => step_of_pending_nil⟩
  rw [step_of_pending_cons hp, decode_encode hx]

end Sys2Proof.Machine
end

section
/-! The frame of an operation and what its effect depends on (R29, R32), and the invariant of the reachable states
(R21, R111, R121). -/

namespace Sys2Proof.Machine

/-! ## What an operation acts on -/

theorem exec_rst_next {i : Nat} {s t : State} :
    exec (.rst i) s = .next t ↔ hasInstance s.config.nDec i = true ∧ s.finishReset i = t := by
  rw [← addressRefusal_eq_none]
  exact unlessRefused_next

theorem exec_enc_next {P : Bytes} {s t : State} :
    exec (.enc P) s = .next t ↔
      withinBound s.config.maxPayload P.length = true ∧ s.finishFrame (encodeFrame P) = t := by
  rw [← encRefusal_eq_none]
  exact unlessRefused_next

/-- A decoder and a payload list as the decoder and the result the host is handed (R97). -/
def decodedResult (r : Decoder × List Bytes) : Decoder × Result := (r.1, .decoded (resultOf r.2))

/-- The next state of an operation that leaves decoder `i` and a result as `r` says. -/
def State.finishInstance (s : State) (i : Nat) (r : Decoder × Result) : State :=
  { s.setDecoder i r.1 with result := r.2 }

@[simp] theorem State.finishInstance_result (s : State) (i : Nat) (r : Decoder × Result) :
    (s.finishInstance i r).result = r.2 := rfl

@[simp] theorem State.decoder_finishInstance_same (s : State) (i : Nat) (r : Decoder × Result) :
    (s.finishInstance i r).decoder i = r.1 := s.decoder_setDecoder_same i r.1

/-- A decoder operation is a function of its own decoder alone, carried out there unless the operands are refused. -/
theorem exec_of_addressed {x : Instr} {i : Nat} (hx : addressed x = some i) :
    ∃ f : Decoder → Decoder × Result,
      ∀ s, exec x s = unlessRefused (operandRefusal s x) (s.finishInstance i (f (s.decoder i))) := by
  cases x with
  | enc | encEnd | encPushZ | encPushNZ => cases hx
  | rst => cases hx; exact ⟨fun d => (d.clear, .done), fun _ => rfl⟩
  | dec _ c => cases hx; exact ⟨fun d => decodedResult (d.feed c), fun _ => rfl⟩
  | decByteDelim => cases hx; exact ⟨fun d => decodedResult (d.feed [delim]), fun _ => rfl⟩
  | decByteBody _ b => cases hx; exact ⟨fun d => decodedResult (d.feed [b]), fun _ => rfl⟩
  | term => cases hx; exact ⟨fun d => decodedResult (d.beat delim), fun _ => rfl⟩
  | len1 => cases hx; exact ⟨fun d => decodedResult (d.beat codeEmpty), fun _ => rfl⟩
  | len255 => cases hx; exact ⟨fun d => decodedResult (d.beat codeFull), fun _ => rfl⟩
  | lenN _ b | data _ b => cases hx; exact ⟨fun d => decodedResult (d.beat b), fun _ => rfl⟩

/-- An encoder operation writes the encoder and the result, nothing else. -/
theorem exec_next_of_unaddressed {x : Instr} {s t : State} (hx : addressed x = none) (h : exec x s = .next t) :
    ∃ e r, t = { s with encoder := e, result := r } := by
  cases x with
  | enc P => exact ⟨_, _, (exec_enc_next.1 h).2.symm⟩
  | encEnd | encPushZ | encPushNZ => cases h; exact ⟨_, _, rfl⟩
  | rst | dec | decByteDelim | decByteBody | term | len1 | len255 | lenN | data => cases hx

theorem onlyInstance_finishInstance (s : State) (i : Nat) (r : Decoder × Result) :
    OnlyInstance i s (s.finishInstance i r) :=
  ⟨fun _ hj => s.decoder_setDecoder_ne hj r.1, rfl, rfl, rfl⟩

/-- A decoder operation changes nothing but its decoder and the result. -/
theorem exec_next_onlyInstance {x : Instr} {i : Nat} {s t : State} (hx : addressed x = some i)
    (h : exec x s = .next t) : OnlyInstance i s t := by
  obtain ⟨f, hf⟩ := exec_of_addressed hx
  rw [hf, unlessRefused_next] at h
  exact h.2 ▸ onlyInstance_finishInstance s i _

/-- No operation changes the parameters or what the host has issued. -/
theorem exec_next_config_pending {x : Instr} {s t : State} (h : exec x s = .next t) :
    t.config = s.config ∧ t.pending = s.pending := by
  cases hx : addressed x with
  | none =>
    obtain ⟨e, r, rfl⟩ := exec_next_of_unaddressed hx h
    exact ⟨rfl, rfl⟩
  | some i =>
    obtain ⟨-, -, hconfig, hpending⟩ := exec_next_onlyInstance hx h
    exact ⟨hconfig, hpending⟩

/-- Settles O35: the frame of a decoder operation, of an encoder operation, and of `ENC`. -/
theorem operationsChangeOnlyWhatTheyAddress : Obligations.OperationsChangeOnlyWhatTheyAddress := by
  intro x s t h
  obtain ⟨hconfig, hpending⟩ := exec_next_config_pending h
  refine ⟨hconfig, hpending, fun i hx => exec_next_onlyInstance hx h, fun hx => ?_, ?_⟩
  · obtain ⟨e, r, rfl⟩ := exec_next_of_unaddressed hx h
    rfl
  · rintro P rfl
    obtain ⟨-, rfl⟩ := exec_enc_next.1 h
    exact ⟨rfl, rfl⟩

theorem feedRefusal_congr {s s' : State} {i : Nat} (n : Nat) (hconfig : s'.config = s.config)
    (hdecoder : s'.decoder i = s.decoder i) : feedRefusal s' i n = feedRefusal s i n := by
  simp only [feedRefusal, hconfig, hdecoder]

/-- Whether a decoder operation is refused depends on the parameters and its decoder alone. -/
theorem operandRefusal_congr {x : Instr} {i : Nat} {s s' : State} (hx : addressed x = some i)
    (hconfig : s'.config = s.config) (hdecoder : s'.decoder i = s.decoder i) :
    operandRefusal s' x = operandRefusal s x := by
  cases x with
  | enc | encEnd | encPushZ | encPushNZ => cases hx
  | rst => simp only [operandRefusal, addressRefusal, hconfig]
  | dec | decByteDelim | decByteBody | term | len1 | len255 | lenN | data =>
    cases hx
    exact feedRefusal_congr _ hconfig hdecoder

/-- Settles O36: a decoder operation is one function of its own decoder in both states, and `ENC` of its payload. -/
theorem instancesDoNotInfluenceEachOther : Obligations.InstancesDoNotInfluenceEachOther := by
  constructor
  · intro x i s s' t hx hconfig hdecoder h
    obtain ⟨f, hf⟩ := exec_of_addressed hx
    rw [hf, unlessRefused_next] at h
    obtain ⟨haccepted, rfl⟩ := h
    have hnext : exec x s' = .next (s'.finishInstance i (f (s'.decoder i))) := by
      rw [hf, operandRefusal_congr hx hconfig hdecoder, haccepted, unlessRefused]
    exact ⟨_, hnext, by simp [hdecoder], by simp [hdecoder]⟩
  · intro P s s' t hconfig h
    obtain ⟨hbound, rfl⟩ := exec_enc_next.1 h
    exact ⟨_, exec_enc_next.2 ⟨by rwa [hconfig], rfl⟩, rfl⟩

/-- Settles O1: an unlisted decoder is at its reset value, and `RST` clears an existing one. -/
theorem resetAndRstGiveTheResetValues : Obligations.ResetAndRstGiveTheResetValues := by
  refine ⟨⟨rfl, rfl⟩, fun i => ⟨rfl, rfl⟩, rfl, fun s i hi => ?_⟩
  exact ⟨_, exec_rst_next.2 ⟨hi, rfl⟩, by simp, by simp [Regs.reset]⟩

/-! ## The invariant, part by part -/

theorem zeroFree_iff {N : Bytes} : zeroFree N = true ↔ delim ∉ N := by
  simp only [zeroFree, List.all_eq_true, decide_eq_true_eq]
  exact ⟨fun h hmem => h delim hmem rfl, fun h b hb hbd => h (hbd ▸ hb)⟩

theorem Decoder.invariant_iff {cap : Option Nat} {d : Decoder} :
    d.invariant cap = true ↔
      delim ∉ d.dbuf ∧ d.regs = Regs.ofBuffer d.dbuf ∧ withinBound cap d.dbuf.length = true := by
  simp [Decoder.invariant, zeroFree_iff, and_assoc]

theorem Encoder.invariant_iff {e : Encoder} : e.invariant = true ↔ delim ∉ e.run ∧ e.run.length ≤ 253 := by
  simp [Encoder.invariant, zeroFree_iff]

theorem State.invariant_iff {s : State} :
    s.invariant = true ↔ bankWf s.decoders = true ∧
      (∀ p ∈ s.decoders, hasInstance s.config.nDec p.1 = true ∧ p.2.invariant s.config.dbufCap = true) ∧
      s.encoder.invariant = true := by
  simp [State.invariant, and_assoc]

theorem withinBound_zero (cap : Option Nat) : withinBound cap 0 = true := by
  cases cap <;> simp [withinBound]

/-- A decoder with an empty buffer and reset registers satisfies the invariant, whatever it has delivered. -/
theorem Decoder.invariant_of_empty {cap : Option Nat} {d : Decoder} (hdbuf : d.dbuf = [])
    (hregs : d.regs = Regs.reset) : d.invariant cap = true := by
  rw [Decoder.invariant_iff, hdbuf, hregs]
  exact ⟨List.not_mem_nil, rfl, withinBound_zero cap⟩

/-- Every decoder of a state with the invariant has it, listed in the bank or not. -/
theorem State.invariant_decoder {s : State} (h : s.invariant = true) (i : Nat) :
    (s.decoder i).invariant s.config.dbufCap = true := by
  obtain ⟨-, hbank, -⟩ := State.invariant_iff.1 h
  exact lookup_induction (Q := fun d => d.invariant s.config.dbufCap = true)
    (Decoder.invariant_of_empty rfl rfl) (fun p hp => (hbank p hp).2) i

/-- Settles O41: the bank lists no decoder and the encoder holds nothing back. -/
theorem invariantHoldsAtReset : Obligations.InvariantHoldsAtReset :=
  State.invariant_iff.2 ⟨rfl, fun _ hp => absurd hp List.not_mem_nil, rfl⟩

/-! ## The decoder keeps its invariant -/

theorem delim_not_mem_residue (X : Bytes) : delim ∉ residue X := by
  induction X using stream_induction with
  | base N hN => rwa [residue_zeroFree hN]
  | step N X hN ih => rwa [residue_append_delim hN]

theorem Regs.feed_delim_cons (r : Regs) (c : Bytes) : r.feed (delim :: c) = Regs.reset.feed c := by
  simp [Regs.feed, Regs.beat]

/-- Registers that represent a zero-free buffer have taken its bytes since reset (R121). -/
theorem Regs.ofBuffer_eq_feed {N : Bytes} (h : delim ∉ N) : Regs.ofBuffer N = Regs.reset.feed N :=
  (Regs.feed_zeroFree Regs.reset h).symm

/-- Registers driven by a stream represent what the drain leaves of it: each zero byte resets them. -/
theorem Regs.feed_reset (X : Bytes) : Regs.reset.feed X = Regs.ofBuffer (residue X) := by
  induction X using stream_induction with
  | base N hN => rw [residue_zeroFree hN, Regs.ofBuffer_eq_feed hN]
  | step N X hN ih => rw [Regs.feed_append, Regs.feed_delim_cons, ih, residue_append_delim hN]

/-- Registers that represent a zero-free buffer represent, after a chunk, what the drain leaves (R121). -/
theorem Regs.feed_ofBuffer {N : Bytes} (h : delim ∉ N) (c : Bytes) :
    (Regs.ofBuffer N).feed c = Regs.ofBuffer (residue (N ++ c)) := by
  rw [Regs.ofBuffer_eq_feed h, ← Regs.feed_append, Regs.feed_reset]

/-- On a zero-free buffer, the buffer's part of a beat is the drain of one more byte. -/
theorem Decoder.beat_dbuf {d : Decoder} (h : delim ∉ d.dbuf) (b : Byte) :
    (d.beat b).1.dbuf = residue (d.dbuf ++ [b]) := by
  by_cases hb : b = delim
  · subst hb
    simp [Decoder.beat, residue_append_delim h, residue_zeroFree]
  · have hN : delim ∉ d.dbuf ++ [b] := by simp [h, Ne.symm hb]
    simp [Decoder.beat, hb, residue_zeroFree hN]

/-- A decoder that took a chunk in both forms keeps the invariant, if the chunk fitted the buffer. -/
theorem Decoder.invariant_of_residue {cap : Option Nat} {d d' : Decoder} {c : Bytes} (h : d.invariant cap = true)
    (hcap : withinBound cap (d.dbuf.length + c.length) = true) (hdbuf : d'.dbuf = residue (d.dbuf ++ c))
    (hregs : d'.regs = d.regs.feed c) : d'.invariant cap = true := by
  obtain ⟨hfree, hrep, -⟩ := Decoder.invariant_iff.1 h
  rw [Decoder.invariant_iff, hregs, hdbuf, hrep]
  refine ⟨delim_not_mem_residue _, Regs.feed_ofBuffer hfree c, withinBound_mono ?_ hcap⟩
  rw [← List.length_append]
  exact residue_length_le _

theorem Decoder.invariant_feed {cap : Option Nat} {d : Decoder} {c : Bytes} (h : d.invariant cap = true)
    (hcap : withinBound cap (d.dbuf.length + c.length) = true) : (d.feed c).1.invariant cap = true :=
  Decoder.invariant_of_residue h hcap (by rw [Decoder.feed_eq]) (d.feed_regs c)

theorem Decoder.invariant_beat {cap : Option Nat} {d : Decoder} {b : Byte} (h : d.invariant cap = true)
    (hcap : withinBound cap (d.dbuf.length + 1) = true) : (d.beat b).1.invariant cap = true :=
  Decoder.invariant_of_residue (c := [b]) h hcap (Decoder.beat_dbuf (Decoder.invariant_iff.1 h).1 b) rfl

/-! ## The encoder keeps its invariant -/

theorem Encoder.invariant_of_run_nil {e : Encoder} (h : e.run = []) : e.invariant = true := by
  simp [Encoder.invariant_iff, h]

/-- A pushed byte is held back only where it is non-zero and does not fill the block (R111). -/
theorem Encoder.invariant_push {e : Encoder} (h : e.invariant = true) (b : Byte) :
    (e.push b).2.invariant = true := by
  obtain ⟨hfree, hlen⟩ := Encoder.invariant_iff.1 h
  rcases e.push_cases b with ⟨-, hpush⟩ | ⟨-, -, hpush⟩ | ⟨hb, hfull, hpush⟩ <;> rw [hpush]
  · exact Encoder.invariant_of_run_nil e.closeSegment_run
  · exact Encoder.invariant_of_run_nil rfl
  · simp only [maxChunk] at hfull
    refine Encoder.invariant_iff.2 ⟨by simp [hfree, Ne.symm hb], ?_⟩
    simp only [List.length_append, List.length_singleton]
    omega

theorem Encoder.invariant_finish (e : Encoder) : e.finish.2.invariant = true :=
  Encoder.invariant_of_run_nil e.closeSegment_run

/-! ## The machine keeps its invariant -/

theorem State.invariant_with_encoder {s : State} {e : Encoder} (r : Result) (h : s.invariant = true)
    (he : e.invariant = true) : ({ s with encoder := e, result := r } : State).invariant = true := by
  obtain ⟨hwf, hbank, -⟩ := State.invariant_iff.1 h
  exact State.invariant_iff.2 ⟨hwf, hbank, he⟩

/-- Writing an existing decoder with the invariant keeps the bank's. -/
theorem State.invariant_finishInstance {s : State} {i : Nat} {r : Decoder × Result} (h : s.invariant = true)
    (hi : hasInstance s.config.nDec i = true) (hd : r.1.invariant s.config.dbufCap = true) :
    (s.finishInstance i r).invariant = true := by
  obtain ⟨hwf, hbank, henc⟩ := State.invariant_iff.1 h
  refine State.invariant_iff.2 ⟨bankWf_store i r.1 hwf, fun p hp => ?_, henc⟩
  rcases mem_store hp with ⟨rfl, -⟩ | hp
  · exact ⟨hi, hd⟩
  · exact hbank p hp

theorem State.invariant_finishDecode {s : State} {i : Nat} {r : Decoder × List Bytes} (h : s.invariant = true)
    (hi : hasInstance s.config.nDec i = true) (hd : r.1.invariant s.config.dbufCap = true) :
    (s.finishDecode i r).invariant = true :=
  State.invariant_finishInstance (r := decodedResult r) h hi hd

theorem State.invariant_finishReset {s : State} {i : Nat} (h : s.invariant = true)
    (hi : hasInstance s.config.nDec i = true) : (s.finishReset i).invariant = true :=
  State.invariant_finishInstance (r := ((s.decoder i).clear, .done)) h hi (Decoder.invariant_of_empty rfl rfl)

/-- Every operation keeps the invariant. -/
theorem exec_preserves_invariant {x : Instr} {s t : State} (hs : s.invariant = true) (h : exec x s = .next t) :
    t.invariant = true := by
  have henc := (State.invariant_iff.1 hs).2.2
  rcases exec_next_cases h with ⟨P, -, -, rfl⟩ | ⟨-, rfl⟩ | ⟨b, -, rfl⟩ | ⟨i, c, -, ⟨hi, -, hcap⟩, rfl⟩ |
    ⟨i, b, -, ⟨hi, -, hcap⟩, rfl⟩ | ⟨i, -, hi, rfl⟩
  · exact State.invariant_with_encoder _ hs henc
  · exact State.invariant_with_encoder _ hs s.encoder.invariant_finish
  · exact State.invariant_with_encoder _ hs (Encoder.invariant_push henc b)
  · exact State.invariant_finishDecode hs hi (Decoder.invariant_feed (s.invariant_decoder hs i) hcap)
  · exact State.invariant_finishDecode hs hi (Decoder.invariant_beat (s.invariant_decoder hs i) hcap)
  · exact State.invariant_finishReset hs hi

/-- Settles O42: taking an operation off the ports does not touch what the invariant speaks of, and every operation
keeps it. -/
theorem everyStepKeepsTheInvariant : Obligations.EveryStepKeepsTheInvariant := by
  intro s t hs h
  rcases step_next_cases h with ⟨-, rfl⟩ | ⟨w, rest, -, h⟩
  · exact hs
  · exact exec_preserves_invariant (s := { s with pending := rest }) hs h

end Sys2Proof.Machine
end

section
/-! Operations on different parts commute, and `ENC` with every operation of the encoder (R29, R49). -/

namespace Sys2Proof.Machine

/-! ## The encoder's operations do not read what was sent -/

/-- A beat neither reads nor writes the record of what was sent before it. -/
def Encoder.IgnoresSent (beat : Encoder → Bytes × Encoder) : Prop :=
  ∀ e z, beat { e with sent := z } = ((beat e).1, { (beat e).2 with sent := z })

theorem Encoder.ignoresSent_push (b : Byte) : Encoder.IgnoresSent (·.push b) := by
  intro e z
  simp only [Encoder.push]
  split
  · rfl
  · split <;> rfl

theorem Encoder.ignoresSent_finish : Encoder.IgnoresSent Encoder.finish := fun _ _ => rfl

theorem Encoder.IgnoresSent.sent_eq {beat : Encoder → Bytes × Encoder} (hbeat : Encoder.IgnoresSent beat)
    (e : Encoder) : (beat e).2.sent = e.sent :=
  congrArg (·.2.sent) (hbeat e e.sent)

/-- From `s` to `t` and from `s'` to `t'` the encoder did the same: the same bytes after what each had sent, the same
registers left, the same result. -/
def EmitAlike (s t s' t' : State) : Prop :=
  t'.result = t.result ∧ t'.encoder.run = t.encoder.run ∧ t'.encoder.flushed = t.encoder.flushed ∧
    ∃ E, t.encoder.sent = s.encoder.sent ++ E ∧ t'.encoder.sent = s'.encoder.sent ++ E

theorem EmitAlike.symm {s t s' t' : State} (h : EmitAlike s t s' t') : EmitAlike s' t' s t := by
  obtain ⟨hresult, hrun, hflushed, E, hsent, hsent'⟩ := h
  exact ⟨hresult.symm, hrun.symm, hflushed.symm, E, hsent', hsent⟩

theorem emitAlike_finishBeat {beat : Encoder → Bytes × Encoder} (hbeat : Encoder.IgnoresSent beat) {s s' : State}
    (hrun : s'.encoder.run = s.encoder.run) (hflushed : s'.encoder.flushed = s.encoder.flushed) :
    EmitAlike s (s.finishBeat (beat s.encoder)) s' (s'.finishBeat (beat s'.encoder)) := by
  have hencoder : s'.encoder = { s.encoder with sent := s'.encoder.sent } := by
    rw [Encoder.mk.injEq]
    exact ⟨hrun, hflushed, rfl⟩
  have hsame : beat s'.encoder = ((beat s.encoder).1, { (beat s.encoder).2 with sent := s'.encoder.sent }) :=
    (congrArg beat hencoder).trans (hbeat s.encoder s'.encoder.sent)
  refine ⟨?_, ?_, ?_, (beat s.encoder).1, ?_, ?_⟩ <;> simp [hsame, hbeat.sent_eq]

/-- What an encoder operation does depends on the parameters and the registers alone. -/
theorem exec_next_emitAlike {x : Instr} {s s' t : State} (hx : addressed x = none) (h : exec x s = .next t)
    (hconfig : s'.config = s.config) (hrun : s'.encoder.run = s.encoder.run)
    (hflushed : s'.encoder.flushed = s.encoder.flushed) : ∃ t', exec x s' = .next t' ∧ EmitAlike s t s' t' := by
  cases x with
  | enc P =>
    obtain ⟨hbound, rfl⟩ := exec_enc_next.1 h
    exact ⟨_, exec_enc_next.2 ⟨hconfig ▸ hbound, rfl⟩, rfl, hrun, hflushed, encodeFrame P, rfl, rfl⟩
  | encEnd => cases h; exact ⟨_, rfl, emitAlike_finishBeat Encoder.ignoresSent_finish hrun hflushed⟩
  | encPushZ => cases h; exact ⟨_, rfl, emitAlike_finishBeat (Encoder.ignoresSent_push delim) hrun hflushed⟩
  | encPushNZ b => cases h; exact ⟨_, rfl, emitAlike_finishBeat (Encoder.ignoresSent_push b) hrun hflushed⟩
  | rst | dec | decByteDelim | decByteBody | term | len1 | len255 | lenN | data => cases hx

theorem exec_next_decoders_of_unaddressed {x : Instr} {s t : State} (hx : addressed x = none)
    (h : exec x s = .next t) : t.decoders = s.decoders := by
  obtain ⟨e, r, rfl⟩ := exec_next_of_unaddressed hx h
  rfl

/-! ## An operation acts on its part alone -/

/-- The part of the machine an operation with this address acts on: a decoder, or the encoder. -/
def State.part (s : State) : Option Nat → Decoder ⊕ Encoder
  | some i => .inl (s.decoder i)
  | none => .inr s.encoder

theorem exec_next_part_of_ne {x : Instr} {s t : State} {p : Option Nat} (hp : p ≠ addressed x)
    (h : exec x s = .next t) : t.part p = s.part p := by
  cases hx : addressed x with
  | none =>
    obtain ⟨j, rfl⟩ := Option.ne_none_iff_exists'.1 (hx ▸ hp)
    exact congrArg (fun l => Sum.inl (lookup j l)) (exec_next_decoders_of_unaddressed hx h)
  | some i =>
    obtain ⟨hdecoder, hencoder, -, -⟩ := exec_next_onlyInstance hx h
    cases p with
    | none => exact congrArg Sum.inr hencoder
    | some j => exact congrArg Sum.inl (hdecoder j fun hj => hp (hj ▸ hx.symm))

/-- From states with the same parameters and the same part, an operation leaves the same part and the same result. -/
theorem exec_next_of_same_part {x : Instr} {s s' t : State} (hconfig : s'.config = s.config)
    (hpart : s'.part (addressed x) = s.part (addressed x)) (h : exec x s = .next t) :
    ∃ t', exec x s' = .next t' ∧ t'.part (addressed x) = t.part (addressed x) ∧ t'.result = t.result := by
  cases hx : addressed x with
  | some i =>
    rw [hx] at hpart
    obtain ⟨t', ht', hdecoder, hresult⟩ :=
      instancesDoNotInfluenceEachOther.1 x i s s' t hx hconfig (Sum.inl.inj hpart) h
    exact ⟨t', ht', congrArg Sum.inl hdecoder, hresult⟩
  | none =>
    rw [hx] at hpart
    have hencoder : s'.encoder = s.encoder := Sum.inr.inj hpart
    obtain ⟨t', ht', hresult, hrun, hflushed, E, hsent, hsent'⟩ :=
      exec_next_emitAlike hx h hconfig (congrArg _ hencoder) (congrArg _ hencoder)
    refine ⟨t', ht', congrArg Sum.inr ?_, hresult⟩
    rw [Encoder.mk.injEq]
    exact ⟨hrun, hflushed, by rw [hsent', hsent, hencoder]⟩

/-- Operations on different parts, in either order, leave every part the same and hand over the same results. -/
theorem exec_comm_of_addressed_ne {x y : Instr} {s s1 s2 : State} (hxy : addressed x ≠ addressed y)
    (h1 : exec x s = .next s1) (h2 : exec y s1 = .next s2) :
    ∃ t1 t2, exec y s = .next t1 ∧ exec x t1 = .next t2 ∧ (∀ p, t2.part p = s2.part p) ∧
      t1.result = s2.result ∧ t2.result = s1.result := by
  obtain ⟨t1, ht1, hy, hresult1⟩ := exec_next_of_same_part (exec_next_config_pending h1).1.symm
    (exec_next_part_of_ne hxy.symm h1).symm h2
  obtain ⟨t2, ht2, hx, hresult2⟩ := exec_next_of_same_part (exec_next_config_pending ht1).1
    (exec_next_part_of_ne hxy ht1) h1
  refine ⟨t1, t2, ht1, ht2, fun p => ?_, hresult1, hresult2⟩
  by_cases hpx : p = addressed x
  · rw [hpx, hx, exec_next_part_of_ne hxy h2]
  by_cases hpy : p = addressed y
  · rw [hpy, exec_next_part_of_ne hxy.symm ht2, hy]
  · rw [exec_next_part_of_ne hpx ht2, exec_next_part_of_ne hpy ht1, exec_next_part_of_ne hpy h2,
      exec_next_part_of_ne hpx h1]

/-! ## `ENC` among the encoder's operations -/

/-- What two orders of the encoder's operations agree on: all they leave but the order of the bytes sent. -/
def AgreeUpToOrder (s t : State) : Prop :=
  s.decoders = t.decoders ∧ s.encoder.run = t.encoder.run ∧ s.encoder.flushed = t.encoder.flushed ∧
    s.encoder.sent.Perm t.encoder.sent

theorem AgreeUpToOrder.symm {s t : State} (h : AgreeUpToOrder s t) : AgreeUpToOrder t s := by
  obtain ⟨hdecoders, hrun, hflushed, hsent⟩ := h
  exact ⟨hdecoders.symm, hrun.symm, hflushed.symm, hsent.symm⟩

/-- A frame sent before or after an encoder operation changes only the order of the bytes. -/
theorem agreeUpToOrder_finishFrame {s t t' : State} {F : Bytes} (hdecoders : t'.decoders = t.decoders)
    (h : EmitAlike s t (s.finishFrame F) t') : AgreeUpToOrder t' (t.finishFrame F) := by
  obtain ⟨-, hrun, hflushed, E, hsent, hsent'⟩ := h
  refine ⟨hdecoders, hrun, hflushed, ?_⟩
  rw [hsent', State.finishFrame_encoder, State.finishFrame_encoder, Encoder.emit_sent, Encoder.emit_sent, hsent,
    List.append_assoc, List.append_assoc]
  exact List.perm_append_comm.append_left s.encoder.sent

/-- Where `x` then `y` went from `s` by `s1` to `s2`, the other order has its steps too, with the same results and a
last state that agrees but for the order of the bytes sent. -/
def CommuteUpToOrder (x y : Instr) (s s1 s2 : State) : Prop :=
  ∃ t1 t2, exec y s = .next t1 ∧ exec x t1 = .next t2 ∧ AgreeUpToOrder t2 s2 ∧
    t1.result = s2.result ∧ t2.result = s1.result

theorem exec_comm_of_enc_first {P : Bytes} {y : Instr} {s s1 s2 : State} (hy : addressed y = none)
    (h1 : exec (.enc P) s = .next s1) (h2 : exec y s1 = .next s2) :
    CommuteUpToOrder (.enc P) y s s1 s2 := by
  obtain ⟨hbound, rfl⟩ := exec_enc_next.1 h1
  obtain ⟨t1, ht1, halike⟩ := exec_next_emitAlike (s' := s) hy h2 rfl rfl rfl
  have hconfig : t1.config = s.config := (exec_next_config_pending ht1).1
  have hdecoders : s2.decoders = t1.decoders :=
    (exec_next_decoders_of_unaddressed hy h2).trans (exec_next_decoders_of_unaddressed hy ht1).symm
  exact ⟨t1, _, ht1, exec_enc_next.2 ⟨hconfig ▸ hbound, rfl⟩,
    (agreeUpToOrder_finishFrame hdecoders halike.symm).symm, halike.1, rfl⟩

theorem exec_comm_of_enc_second {P : Bytes} {x : Instr} {s s1 s2 : State} (hx : addressed x = none)
    (h1 : exec x s = .next s1) (h2 : exec (.enc P) s1 = .next s2) :
    CommuteUpToOrder x (.enc P) s s1 s2 := by
  obtain ⟨hbound, rfl⟩ := exec_enc_next.1 h2
  obtain ⟨t2, ht2, halike⟩ := exec_next_emitAlike (s' := s.finishFrame (encodeFrame P)) hx h1 rfl rfl rfl
  have hconfig : s1.config = s.config := (exec_next_config_pending h1).1
  have hdecoders : t2.decoders = s1.decoders :=
    (exec_next_decoders_of_unaddressed hx ht2).trans (exec_next_decoders_of_unaddressed hx h1).symm
  exact ⟨_, t2, exec_enc_next.2 ⟨hconfig ▸ hbound, rfl⟩, ht2, agreeUpToOrder_finishFrame hdecoders halike, rfl,
    halike.1⟩

/-- Settles O37: each operation reads and writes its own part alone; and `ENC` leaves the registers, which are all the
encoder's operations read. -/
theorem operationsOnDifferentInstancesCommute : Obligations.OperationsOnDifferentInstancesCommute := by
  constructor
  · intro x y s s1 s2 hxy h1 h2
    obtain ⟨t1, t2, ht1, ht2, hparts, hresult1, hresult2⟩ := exec_comm_of_addressed_ne hxy h1 h2
    exact ⟨t1, t2, ht1, ht2, fun k => Sum.inl.inj (hparts (some k)), Sum.inr.inj (hparts none), hresult1, hresult2⟩
  · intro x y s s1 s2 hx hy henc h1 h2
    have hcomm : CommuteUpToOrder x y s s1 s2 := by
      rcases henc with ⟨P, rfl⟩ | ⟨P, rfl⟩
      · exact exec_comm_of_enc_first hy h1 h2
      · exact exec_comm_of_enc_second hx h1 h2
    obtain ⟨t1, t2, ht1, ht2, ⟨hdecoders, hrun, hflushed, hsent⟩, hresult1, hresult2⟩ := hcomm
    exact ⟨t1, t2, ht1, ht2, hdecoders, hrun, hflushed, hresult1, hresult2, hsent⟩

end Sys2Proof.Machine
end

section
/-! Decoding and encoding of the transfers: the class of every symbol (R62, R71, R72), and the round trips (R67, R70). -/

namespace Sys2Proof

/-! ## The classes of the symbols -/

/-- The mask of the row `ENC.END` keeps the bit `end`, the highest of the symbol. -/
theorem encSymbol_and_end_iff (w : EncSymbol) : w &&& 0x100#9 = 0x100#9 ↔ 256 ≤ w.toNat := by
  have hmask : w &&& 0x100#9 = if w.msb then 0x100#9 else 0#9 := BitVec.and_twoPow w 8
  have hmsb : w.msb = decide (256 ≤ w.toNat) := BitVec.msb_eq_decide w
  by_cases h : 256 ≤ w.toNat <;> simp [hmask, hmsb, h]

/-- A mask of nine ones compares the whole symbol. -/
@[simp] theorem encSymbol_and_mask (w : EncSymbol) : w &&& 0x1FF#9 = w := BitVec.and_allOnes

theorem decodeEncSymbol_eq (w : EncSymbol) :
    decodeEncSymbol w = if w.toNat ≥ 256 then .encEnd else if w.toNat = 0 then .encPushZ
      else .encPushNZ (BitVec.ofNat 8 w.toNat) := by
  simp only [decodeEncSymbol, encSymbol_and_end_iff, encSymbol_and_mask]
  simp only [← BitVec.toNat_inj, BitVec.ofNat_toNat]
  rfl

theorem decodeDecSymbol_eq (i : Nat) (b : Byte) :
    decodeDecSymbol i b = if b.toNat = 0 then .decByteDelim i else .decByteBody i b := by
  simp only [decodeDecSymbol, byte_and_mask, ← BitVec.toNat_inj]
  rfl

theorem decodeSpanCode_eq (i : Nat) (b : Byte) :
    decodeSpanCode i b = if b.toNat = 0 then .term i else if b.toNat = 1 then .len1 i
      else if b.toNat = 255 then .len255 i else .lenN i b := by
  simp only [decodeSpanCode, byte_and_mask, ← BitVec.toNat_inj]
  rfl

theorem decodeSpanData_eq (i : Nat) (b : Byte) :
    decodeSpanData i b = if b.toNat = 0 then .decByteDelim i else .data i b := by
  simp only [decodeSpanData, ← BitVec.toNat_inj]
  rfl

/-- Settles O43: each format's mask and match tests are comparisons of the symbol's value. -/
theorem everySymbolHasItsClass : Obligations.EverySymbolHasItsClass :=
  ⟨decodeEncSymbol_eq, fun i b => ⟨decodeDecSymbol_eq i b, decodeSpanCode_eq i b, decodeSpanData_eq i b⟩⟩

/-- Settles O46: the words have the values of their classes' rows. -/
theorem tableWordsDecode : Obligations.TableWordsDecode := by
  unfold Obligations.TableWordsDecode
  decide

/-! ## The round trips -/

/-- Settles O44: no row before an operation's own catches its symbol. -/
theorem decodeOfEncodeIsTheOperation : Obligations.DecodeOfEncodeIsTheOperation := fun _ => decode_encode

theorem encode_port (x : Instr) : (encode x).port = x.port := by
  cases x <;> rfl

/-- A symbol with the bit `end` clear is the byte it carries. -/
theorem encSymbolOf_false_setWidth {w : EncSymbol} (h : w.toNat < 256) : encSymbolOf false (w.setWidth 8) = w := by
  apply BitVec.eq_of_toNat_eq
  rw [encSymbolOf, BitVec.toNat_append]
  simp [Nat.mod_eq_of_lt h]

/-- A format P symbol with the bit `end` clear selects a well-formed push. -/
theorem exists_encode_of_encSymbol_lt {w : EncSymbol} (h : w.toNat < 256) :
    ∃ x : Instr, x.wellFormed = true ∧ encode x = .encSymbol w := by
  rw [← encSymbolOf_false_setWidth h]
  by_cases hb : w.setWidth 8 = delim
  · exact ⟨.encPushZ, rfl, by rw [hb]; rfl⟩
  · exact ⟨.encPushNZ (w.setWidth 8), decide_eq_true hb, rfl⟩

theorem exists_encode_of_decSymbol (i : Nat) (b : Byte) :
    ∃ x : Instr, x.wellFormed = true ∧ encode x = .decSymbol i b := by
  by_cases hb : b = delim
  · exact ⟨.decByteDelim i, rfl, by rw [hb]; rfl⟩
  · exact ⟨.decByteBody i b, decide_eq_true hb, rfl⟩

/-- The four classes of format C have every byte between them (R62, R67). -/
theorem exists_encode_of_spanCode (i : Nat) (b : Byte) :
    ∃ x : Instr, x.wellFormed = true ∧ encode x = .spanCode i b := by
  by_cases h0 : b = 0x00#8
  · exact ⟨.term i, rfl, by rw [h0]; rfl⟩
  by_cases h1 : b = 0x01#8
  · exact ⟨.len1 i, rfl, by rw [h1]; rfl⟩
  by_cases h255 : b = 0xFF#8
  · exact ⟨.len255 i, rfl, by rw [h255]; rfl⟩
  have hbetween : 2 ≤ b.toNat ∧ b.toNat ≤ 254 := by bv_omega
  exact ⟨.lenN i b, decide_eq_true hbetween, rfl⟩

/-- Every transfer is an encoded well-formed operation, but for the symbols that may carry ignored bits beside `end`
and for a zero at a data position. -/
theorem transfer_cases (t : Transfer) :
    (∃ x : Instr, x.wellFormed = true ∧ encode x = t) ∨ (∃ w : EncSymbol, 256 ≤ w.toNat ∧ t = .encSymbol w) ∨
      ∃ i, t = .spanData i 0x00#8 := by
  cases t with
  | encWhole P => exact .inl ⟨.enc P, rfl, rfl⟩
  | decWhole i c => exact .inl ⟨.dec i c, rfl, rfl⟩
  | rstAssert i => exact .inl ⟨.rst i, rfl, rfl⟩
  | encSymbol w =>
    rcases Nat.lt_or_ge w.toNat 256 with hw | hw
    · exact .inl (exists_encode_of_encSymbol_lt hw)
    · exact .inr (.inl ⟨w, hw, rfl⟩)
  | decSymbol i b => exact .inl (exists_encode_of_decSymbol i b)
  | spanCode i b => exact .inl (exists_encode_of_spanCode i b)
  | spanData i b =>
    by_cases hb : b = delim
    · exact .inr (.inr ⟨i, by rw [hb]; rfl⟩)
    · exact .inl ⟨.data i b, decide_eq_true hb, rfl⟩

/-- The row `ENC.END` catches every symbol with the bit `end` set. -/
theorem decode_encSymbol_of_end {w : EncSymbol} (hw : 256 ≤ w.toNat) : decode (.encSymbol w) = .encEnd :=
  if_pos ((encSymbol_and_end_iff w).2 hw)

/-- Settles O45: an encoded operation by the round trip of `decode_encode`; `ENC.END` sent with ignored bits and a zero
at a data position are the two exceptions. -/
theorem encodeOfDecodeIsTheTransfer : Obligations.EncodeOfDecodeIsTheTransfer := by
  intro t
  rcases transfer_cases t with ⟨x, hx, rfl⟩ | ⟨w, hw, rfl⟩ | ⟨i, rfl⟩
  · rw [decode_encode hx]
    exact ⟨hx, (encode_port x).symm, fun _ _ => rfl⟩
  · rw [decode_encSymbol_of_end hw]
    refine ⟨rfl, rfl, fun hle _ => ?_⟩
    have hw256 : w = 0x100#9 := BitVec.eq_of_toNat_eq (Nat.le_antisymm (hle w rfl) hw)
    rw [hw256]
    rfl
  · exact ⟨rfl, rfl, fun _ hzero => absurd rfl (hzero i)⟩

end Sys2Proof
end

section
/-! One byte through the register form (R120): the classes of formats C and B at a code and at a data position (R62 to
R65), and a whole block (R62). -/

namespace Sys2Proof.Machine

/-! ## One byte on one decoder -/

/-- A code byte at a code position starts its block, after the implied zero of the block before. -/
theorem Decoder.beat_of_code {d : Decoder} {b : Byte} (hb : b ≠ delim) (hrem : d.regs.rem = 0) :
    d.beat b =
      ({ dbuf := d.dbuf ++ [b]
         regs :=
           { code := b
             rem := b.toNat - 1
             out := if d.regs.code ≠ 0x00#8 ∧ d.regs.code ≠ codeFull then d.regs.out ++ [delim] else d.regs.out }
         delivered := d.delivered }, []) := by
  simp [Decoder.beat, Regs.beat, Regs.body, hb, hrem]

/-- A non-zero byte at a data position is copied. -/
theorem Decoder.beat_of_data {d : Decoder} {b : Byte} (hb : b ≠ delim) (hrem : 0 < d.regs.rem) :
    d.beat b =
      ({ dbuf := d.dbuf ++ [b]
         regs := { code := d.regs.code, rem := d.regs.rem - 1, out := d.regs.out ++ [b] }
         delivered := d.delivered }, []) := by
  simp [Decoder.beat, Regs.beat, Regs.body, hb, hrem]

/-- The delimiter clears both forms and delivers the payload the registers hold, if they hold one. -/
theorem Decoder.beat_delim (d : Decoder) :
    d.beat delim =
      ({ dbuf := [], regs := Regs.reset, delivered := d.delivered ++ d.regs.payload.toList },
        d.regs.payload.toList) := by
  simp [Decoder.beat, Regs.beat]

theorem Regs.payload_eq_some {r : Regs} (h : r.code ≠ 0x00#8 ∧ r.rem = 0) : r.payload = some r.out := if_pos h

theorem Regs.payload_eq_none {r : Regs} (h : r.code = 0x00#8 ∨ r.rem ≠ 0) : r.payload = none :=
  if_neg fun ⟨hcode, hrem⟩ => h.elim hcode fun hne => hne hrem

/-- An accepted byte does what the beat does to its decoder, and nothing else. -/
theorem feedByte_of_accepts {s : State} {i : Nat} (h : s.accepts i 1) (b : Byte) :
    ∃ t, feedByte i b s = .next t ∧ t.decoder i = ((s.decoder i).beat b).1 ∧
      t.result = .decoded (resultOf ((s.decoder i).beat b).2) ∧ OnlyInstance i s t :=
  ⟨_, feedByte_next.2 ⟨h, rfl⟩, s.decoder_finishDecode_same i _, rfl,
    onlyInstance_finishInstance s i (decodedResult ((s.decoder i).beat b))⟩

/-- Settles O27: each of the three classes feeds its byte, which is no delimiter. -/
theorem codeByteStartsABlock : Obligations.CodeByteStartsABlock := by
  intro s i x b haccepts hrem hx
  have hexec : exec x s = feedByte i b s ∧ b ≠ delim := by
    rcases hx with ⟨rfl, rfl⟩ | ⟨rfl, rfl⟩ | ⟨rfl, hlow, -⟩
    · exact ⟨rfl, by decide⟩
    · exact ⟨rfl, by decide⟩
    · exact ⟨rfl, by rintro rfl; simp [delim] at hlow⟩
  obtain ⟨t, ht, hdecoder, hresult, honly⟩ := feedByte_of_accepts haccepts b
  rw [Decoder.beat_of_code hexec.2 hrem] at hdecoder hresult
  exact ⟨t, hexec.1.trans ht, hdecoder, hresult, honly⟩

/-- Settles O28: `DATA` at a data position is the copying beat, and `TERM` the delimiter's. -/
theorem dataIsCopiedAndTermEndsTheSpan : Obligations.DataIsCopiedAndTermEndsTheSpan := by
  intro s i haccepts
  refine ⟨fun b hrem hb => ?_, fun hended => ?_, fun hopen => ?_⟩
  · obtain ⟨t, ht, hdecoder, hresult, honly⟩ := feedByte_of_accepts haccepts b
    rw [Decoder.beat_of_data hb hrem] at hdecoder hresult
    exact ⟨t, ht, hdecoder, hresult, honly⟩
  · obtain ⟨t, ht, hdecoder, hresult, honly⟩ := feedByte_of_accepts haccepts delim
    rw [Decoder.beat_delim, Regs.payload_eq_some hended] at hdecoder hresult
    exact ⟨t, ht, hdecoder, hresult, honly⟩
  · obtain ⟨t, ht, hdecoder, hresult, honly⟩ := feedByte_of_accepts haccepts delim
    rw [Decoder.beat_delim, Regs.payload_eq_none hopen] at hdecoder hresult
    exact ⟨t, ht, by simpa [Regs.reset] using hdecoder, hresult, honly⟩

/-- Settles O30: every class feeds its byte, and at a data position the byte `0x01` is copied. -/
theorem positionDecidesTheRoleOfAByte : Obligations.PositionDecidesTheRoleOfAByte := by
  intro s i
  refine ⟨rfl, rfl, fun _ => rfl, fun haccepts hrem => ?_⟩
  obtain ⟨t, ht, hdecoder, -, -⟩ := feedByte_of_accepts haccepts 0x01#8
  rw [Decoder.beat_of_data (by decide) hrem] at hdecoder
  exact ⟨t, ht, by rw [hdecoder], by rw [hdecoder]⟩

/-! ## A whole block -/

/-- Each class of format C feeds its byte. -/
theorem exec_decode_spanCode (i : Nat) (b : Byte) (s : State) : exec (decode (.spanCode i b)) s = feedByte i b s := by
  simp only [decode, decodeSpanCode, byte_and_mask]
  split_ifs with hterm hlen1 hlen255
  · rw [hterm]; rfl
  · rw [hlen1]; rfl
  · rw [hlen255]; rfl
  · rfl

theorem exec_decode_spanData {b : Byte} (hb : b ≠ delim) (i : Nat) (s : State) :
    exec (decode (.spanData i b)) s = feedByte i b s := by
  rw [decode, decodeSpanData_of_ne hb]
  rfl

/-- Instance `i` accepts `n` non-zero bytes one by one: each is a chunk of one byte, and the buffer keeps them all
(`step_of_beat`). -/
def State.AcceptsBeats (s : State) (i n : Nat) : Prop :=
  hasInstance s.config.nDec i = true ∧ withinBound s.config.maxChunkIn 1 = true ∧
    withinBound s.config.dbufCap ((s.decoder i).dbuf.length + n) = true

theorem State.AcceptsBeats.accepts {s : State} {i n : Nat} (h : s.AcceptsBeats i (n + 1)) : s.accepts i 1 := by
  obtain ⟨hinstance, hchunk, hcap⟩ := h
  exact ⟨hinstance, hchunk, withinBound_mono (by omega) hcap⟩

/-- A step that takes a transfer feeding a non-zero byte does the beat on its decoder. -/
theorem step_of_beat {s : State} {w : Transfer} {rest : List Transfer} {i n : Nat} {b : Byte}
    (hpending : s.pending = w :: rest) (hw : ∀ s, exec (decode w) s = feedByte i b s) (hb : b ≠ delim)
    (h : s.AcceptsBeats i (n + 1)) :
    ∃ t, step s = .next t ∧ t.decoder i = ((s.decoder i).beat b).1 ∧ t.pending = rest ∧ t.AcceptsBeats i n := by
  have haccepts : ({ s with pending := rest } : State).accepts i 1 := h.accepts
  obtain ⟨t, ht, hdecoder, -, -, -, hconfig, hrest⟩ := feedByte_of_accepts haccepts b
  have hlength : (t.decoder i).dbuf.length = (s.decoder i).dbuf.length + 1 := by
    simp [hdecoder, Decoder.beat, hb]
  obtain ⟨hinstance, hchunk, hcap⟩ := h
  refine ⟨t, by rw [step_of_pending_cons hpending, hw, ht], hdecoder, hrest, ?_⟩
  rw [State.AcceptsBeats, hconfig, hlength, Nat.add_right_comm]
  exact ⟨hinstance, hchunk, hcap⟩

/-- The data bytes of a block, one beat each, are copied to `out` while `rem` counts them down; the run goes on from
there. -/
theorem run_dataBytes {D : Bytes} {s : State} {i n : Nat} {rest : List Transfer} (hfree : delim ∉ D)
    (hpending : s.pending = D.map (.spanData i) ++ rest) (hrem : D.length ≤ (s.decoder i).regs.rem)
    (h : s.AcceptsBeats i (D.length + n)) :
    ∃ t, (∀ k, Host.Core.run Sys2Proof.core (D.length + k) s = Host.Core.run Sys2Proof.core k t) ∧
      (t.decoder i).regs =
        { code := (s.decoder i).regs.code, rem := (s.decoder i).regs.rem - D.length
          out := (s.decoder i).regs.out ++ D } ∧
      (t.decoder i).delivered = (s.decoder i).delivered ∧ t.pending = rest ∧ t.AcceptsBeats i n := by
  induction D generalizing s with
  | nil => exact ⟨s, by simp, by simp, rfl, hpending, by simpa using h⟩
  | cons b D ih =>
    obtain ⟨hb, hfree⟩ := delim_not_mem_cons.1 hfree
    rw [List.length_cons] at hrem h
    rw [Nat.add_right_comm] at h
    obtain ⟨t, hstep, hdecoder, hpending, haccepts⟩ :=
      step_of_beat hpending (exec_decode_spanData hb.symm i) hb.symm h
    rw [Decoder.beat_of_data hb.symm (by omega)] at hdecoder
    obtain ⟨u, hrun, hregs, hdelivered, hrest, haccepts⟩ := ih hfree hpending (by rw [hdecoder]; dsimp; omega) haccepts
    refine ⟨u, fun k => ?_, ?_, by rw [hdelivered, hdecoder], hrest, haccepts⟩
    · rw [List.length_cons, Nat.add_right_comm, run_succ _ hstep, hrun]
    · rw [hregs, hdecoder]
      simp [Nat.sub_sub, Nat.add_comm]

/-- Settles O29: the code byte sets `rem` to the number of data bytes, they bring it down to 0, and the next code byte
finds `code` still at `L`. -/
theorem blockImpliesAZeroUnlessItsCodeIs255 : Obligations.BlockImpliesAZeroUnlessItsCodeIs255 := by
  intro s i L c D rest hrem hL hc hfree hD hpending hinstance hchunk hcap
  obtain ⟨t, hstepL, hdecoderL, hpendingL, hacceptsL⟩ :=
    step_of_beat hpending (exec_decode_spanCode i L) hL ⟨hinstance, hchunk, hcap⟩
  rw [Decoder.beat_of_code hL hrem] at hdecoderL
  have hremL : (t.decoder i).regs.rem = D.length := by rw [hdecoderL, ← hD]; rfl
  obtain ⟨v, hrunD, hregsD, hdeliveredD, hpendingD, hacceptsD⟩ :=
    run_dataBytes (n := 1) hfree hpendingL hremL.ge hacceptsL
  obtain ⟨u, hstepC, hdecoderC, hpendingC, -⟩ := step_of_beat hpendingD (exec_decode_spanCode i c) hc hacceptsD
  rw [Decoder.beat_of_code hc (by rw [hregsD, hremL]; simp)] at hdecoderC
  refine ⟨t, u, run_succ 0 hstepL, ?_, ?_, hpendingC, ?_⟩
  · rw [run_succ _ hstepL, hrunD, run_succ 0 hstepC]
    rfl
  · have hcode : (t.decoder i).regs.code = L := by rw [hdecoderL]
    by_cases hfull : L = 0xFF#8 <;> simp [hdecoderC, hregsD, hcode, hL, hfull, codeFull, delim]
  · rw [hdecoderC, hdeliveredD, hdecoderL]

end Sys2Proof.Machine
end

section
/-! The length of a frame (R75). -/

namespace Sys2Proof.Machine

/-- The blocks of a segment after its first: `nblocks_eq` ties it to `nblocks`. -/
def extraBlocks (S : Bytes) : Nat := (S.length - 1) / 254

theorem nblocks_eq (S : Bytes) : nblocks S = 1 + extraBlocks S := by
  by_cases hS : S = []
  · simp [nblocks, extraBlocks, hS]
  · have hpos : 0 < S.length := List.length_pos_of_ne_nil hS
    rw [nblocks, if_neg hS, extraBlocks]
    omega

theorem extraBlocks_eq_zero {S : Bytes} : extraBlocks S = 0 ↔ S.length ≤ 254 := by
  rw [extraBlocks]
  omega

/-- The blocks of a segment hold its bytes and one code byte each. -/
theorem length_blocks_chunksWithin {n : Nat} {S : Bytes} (h : S.length ≤ n) :
    ((chunksWithin n S).map blockOf).flatten.length = S.length + 1 + extraBlocks S := by
  induction n generalizing S with
  | zero =>
    obtain rfl : S = [] := List.length_eq_zero_iff.1 (by omega)
    rfl
  | succ n ih =>
    by_cases hS : S.length ≤ maxChunk
    · simp [chunksWithin, hS, blockOf, extraBlocks_eq_zero.2 hS]
    · have hcut : chunksWithin (n + 1) S = S.take maxChunk :: chunksWithin n (S.drop maxChunk) := if_neg hS
      have hmax : maxChunk = 254 := rfl
      have hrest := ih (S := S.drop maxChunk) (by rw [List.length_drop]; omega)
      rw [hcut, List.map_cons, List.flatten_cons, List.length_append, hrest]
      simp only [blockOf, extraBlocks, List.length_cons, List.length_take, List.length_drop]
      omega

theorem length_encseg (S : Bytes) : (encseg S).length = S.length + 1 + extraBlocks S := by
  cases S with
  | nil => rfl
  | cons b S => exact length_blocks_chunksWithin (Nat.le_refl _)

theorem encodeFrame_zeroFree {N : Bytes} (h : delim ∉ N) : encodeFrame N = encseg N ++ [delim] := by
  simp [encodeFrame, segments_zeroFree h]

theorem encodeFrame_append_delim {N : Bytes} (h : delim ∉ N) (X : Bytes) :
    encodeFrame (N ++ delim :: X) = encseg N ++ encodeFrame X := by
  simp [encodeFrame, segments_append_delim h]

/-- The first block of each segment pays for the zero that ended the segment before it, so a frame is longer than its
payload by one code byte, the delimiter and the blocks after the first in each segment. -/
theorem length_encodeFrame (P : Bytes) :
    (encodeFrame P).length = P.length + 2 + ((segments P).map extraBlocks).sum := by
  induction P using stream_induction with
  | base N hN =>
    simp only [encodeFrame_zeroFree hN, segments_zeroFree hN, List.length_append, length_encseg, List.map_singleton,
      List.sum_singleton, List.length_singleton]
    omega
  | step N X hN ih =>
    simp only [encodeFrame_append_delim hN, segments_append_delim hN, List.length_append, length_encseg, ih,
      List.map_cons, List.sum_cons, List.length_cons]
    omega

theorem length_segments (P : Bytes) : (segments P).length = P.count delim + 1 := by
  induction P using stream_induction with
  | base N hN => simp [segments_zeroFree hN, List.count_eq_zero_of_not_mem hN]
  | step N X hN ih => simp [segments_append_delim hN, ih, List.count_eq_zero_of_not_mem hN]

theorem sum_nblocks (Ss : List Bytes) : (Ss.map nblocks).sum = Ss.length + (Ss.map extraBlocks).sum := by
  simp [funext nblocks_eq, List.sum_map_add]

/-- Every block after the first of its segment stands for 254 non-zero bytes of the payload. -/
theorem sum_extraBlocks_le (P : Bytes) : 254 * ((segments P).map extraBlocks).sum + P.count delim ≤ P.length := by
  have hsegment (S : Bytes) : 254 * extraBlocks S ≤ S.length := by rw [extraBlocks]; omega
  induction P using stream_induction with
  | base N hN => simpa [segments_zeroFree hN, List.count_eq_zero_of_not_mem hN] using hsegment N
  | step N X hN ih =>
    have hfirst := hsegment N
    simp only [segments_append_delim hN, List.map_cons, List.sum_cons, List.count_append, List.count_cons_self,
      List.count_eq_zero_of_not_mem hN, List.length_append, List.length_cons]
    omega

/-- Settles O7: every clause is read off the exact length and the number of blocks after the first of their segments. -/
theorem frameLengthIsBounded : Obligations.FrameLengthIsBounded := by
  intro P
  have hlength := length_encodeFrame P
  have hextra := sum_extraBlocks_le P
  refine ⟨?_, by omega, ?_, by omega, by omega⟩
  · rw [sum_nblocks, length_segments]
    omega
  · calc (encodeFrame P).length = P.length + 2
        ↔ ((segments P).map extraBlocks).sum = 0 := by omega
      _ ↔ ∀ S ∈ segments P, S.length ≤ 254 := by simp [List.sum_eq_zero_iff, extraBlocks_eq_zero]

end Sys2Proof.Machine
end

section
/-! The steps of the encoder (R81 to R85): the segments of a payload, the chunks of a segment and the frame `ENC`
returns. -/

namespace Sys2Proof.Machine

/-! ## The segments of a payload -/

theorem delim_not_mem_of_mem_segments {P S : Bytes} (h : S ∈ segments P) : delim ∉ S := by
  induction P using stream_induction with
  | base N hN =>
    obtain rfl : S = N := by simpa [segments_zeroFree hN] using h
    exact hN
  | step N X hN ih =>
    rw [segments_append_delim hN, List.mem_cons] at h
    rcases h with rfl | h
    · exact hN
    · exact ih h

/-- The segments with the zeros put back between them are the payload. -/
theorem intercalate_segments (P : Bytes) : [delim].intercalate (segments P) = P := by
  induction P using stream_induction with
  | base N hN => simp [segments_zeroFree hN]
  | step N X hN ih =>
    rw [segments_append_delim hN, List.intercalate_cons_of_ne_nil (segments_ne_nil X), ih]
    simp

/-- Settles O4: the payload is cut at its first zero, and so on along it. -/
theorem segmentsSplitAtEveryZero : Obligations.SegmentsSplitAtEveryZero := fun P =>
  ⟨length_segments P, fun _ => delim_not_mem_of_mem_segments, intercalate_segments P, rfl, rfl⟩

/-! ## The chunks of a segment -/

/-- Induction along a segment: one that fits a chunk, and a full chunk in front of more. -/
theorem segment_induction {Q : Bytes → Prop} (base : ∀ S, S.length ≤ 254 → Q S)
    (step : ∀ c S, c.length = 254 → S ≠ [] → Q S → Q (c ++ S)) (S : Bytes) : Q S := by
  induction h : S.length using Nat.strong_induction_on generalizing S with
  | _ n ih =>
    by_cases hS : S.length ≤ 254
    · exact base S hS
    · have hrest : (S.drop 254).length = S.length - 254 := List.length_drop
      have hQ : Q (S.drop 254) := ih _ (by omega) _ rfl
      have hne : S.drop 254 ≠ [] := List.ne_nil_of_length_pos (by omega)
      rw [← List.take_append_drop 254 S]
      exact step _ _ (List.length_take_of_le (by omega)) hne hQ

theorem chunksWithin_of_length_le {S : Bytes} (h : S.length ≤ 254) (n : Nat) : chunksWithin n S = [S] := by
  cases n with
  | zero => rfl
  | succ n => exact if_pos h

theorem chunksWithin_append {c S : Bytes} (hc : c.length = 254) (hS : S ≠ []) (n : Nat) :
    chunksWithin (n + 1) (c ++ S) = c :: chunksWithin n S := by
  have hpos : 0 < S.length := List.length_pos_of_ne_nil hS
  have hlong : ¬ (c ++ S).length ≤ maxChunk := by simp only [List.length_append, maxChunk]; omega
  have hcut : maxChunk = c.length := hc.symm
  simp only [chunksWithin, if_neg hlong]
  rw [hcut, List.take_left, List.drop_left]

/-- Any bound on the cuts that is at least `|S|` gives the chunks. -/
theorem chunksWithin_eq_chunks254 {n : Nat} {S : Bytes} (h : S.length ≤ n) : chunksWithin n S = chunks254 S := by
  induction S using segment_induction generalizing n with
  | base S hS => rw [chunks254, chunksWithin_of_length_le hS, chunksWithin_of_length_le hS]
  | step c S hc hS ih =>
    have hlength : (c ++ S).length = S.length + 253 + 1 := by rw [List.length_append]; omega
    obtain ⟨m, rfl⟩ : ∃ m, n = m + 1 := ⟨n - 1, by omega⟩
    rw [chunks254, hlength, chunksWithin_append hc hS, chunksWithin_append hc hS, ih (by omega), ih (by omega)]

theorem chunks254_of_length_le {S : Bytes} (h : S.length ≤ 254) : chunks254 S = [S] :=
  chunksWithin_of_length_le h S.length

/-- The greedy cut: a full chunk comes off the front as long as more follows. -/
theorem chunks254_append {c S : Bytes} (hc : c.length = 254) (hS : S ≠ []) :
    chunks254 (c ++ S) = c :: chunks254 S := by
  have hlength : (c ++ S).length = S.length + 253 + 1 := by rw [List.length_append]; omega
  rw [chunks254, hlength, chunksWithin_append hc hS, chunksWithin_eq_chunks254 (by omega)]

theorem flatten_chunks254 (S : Bytes) : (chunks254 S).flatten = S := by
  induction S using segment_induction with
  | base S hS => simp [chunks254_of_length_le hS]
  | step c S hc hS ih => rw [chunks254_append hc hS, List.flatten_cons, ih]

theorem length_chunks254 (S : Bytes) : (chunks254 S).length = nblocks S := by
  rw [nblocks_eq]
  induction S using segment_induction with
  | base S hS => simp [chunks254_of_length_le hS, extraBlocks_eq_zero.2 hS]
  | step c S hc hS ih =>
    have hpos : 0 < S.length := List.length_pos_of_ne_nil hS
    rw [chunks254_append hc hS, List.length_cons, ih]
    simp only [extraBlocks, List.length_append]
    omega

/-- The chunks are full ones and a last one, which is empty only for the empty segment. -/
theorem exists_chunks254_eq_append_last (S : Bytes) :
    ∃ (full : List Bytes) (last : Bytes), chunks254 S = full ++ [last] ∧ (∀ c ∈ full, c.length = 254) ∧
      last.length ≤ 254 ∧ (S ≠ [] → last ≠ []) := by
  induction S using segment_induction with
  | base S hS => exact ⟨[], S, chunks254_of_length_le hS, by simp, hS, id⟩
  | step c S hc hS ih =>
    obtain ⟨full, last, hchunks, hfull, hlast, hne⟩ := ih
    exact ⟨c :: full, last, by rw [chunks254_append hc hS, hchunks, List.cons_append],
      List.forall_mem_cons.2 ⟨hc, hfull⟩, hlast, fun _ => hne hS⟩

/-- Settles O5: the chunks are full ones and a last one. -/
theorem chunksAreCutGreedily : Obligations.ChunksAreCutGreedily := by
  intro S hS
  obtain ⟨full, last, hchunks, hfull, hlast, hne⟩ := exists_chunks254_eq_append_last S
  refine ⟨flatten_chunks254 S, by rw [length_chunks254, nblocks, if_neg hS], ?_, ?_⟩
  · rwa [hchunks, List.dropLast_concat]
  · rw [hchunks, List.getLast?_concat]
    intro c hc
    obtain rfl := Option.mem_some.1 hc
    exact ⟨List.length_pos_of_ne_nil (hne hS), hlast⟩

/-! ## The frame -/

theorem encseg_eq (S : Bytes) :
    encseg S = if S = [] then [codeEmpty] else ((chunks254 S).map blockOf).flatten := by
  cases S with
  | nil => rfl
  | cons b S => rfl

theorem exec_enc_refused {P : Bytes} {s : State} (h : withinBound s.config.maxPayload P.length = false) :
    exec (.enc P) s = .refused .payloadTooLong := by
  have hrefusal : encRefusal s P.length = some .payloadTooLong := by simp [encRefusal, h]
  exact unlessRefused_refused.2 hrefusal

/-- Settles O3: `F` is `encodeFrame P` with the code bytes and the delimiter written out. -/
theorem encReturnsTheFrame : Obligations.EncReturnsTheFrame := by
  intro s P F hF
  obtain rfl : F = encodeFrame P := by
    rw [hF, encodeFrame, funext encseg_eq]
    rfl
  exact ⟨fun h => exec_enc_next.2 ⟨h, rfl⟩, exec_enc_refused⟩

end Sys2Proof.Machine
end

section
/-! `DEC` in closed form (R97, R98) with what follows from it (R99, R102, R103), and `RST` (R104). -/

namespace Sys2Proof.Machine

/-! ## `DEC` -/

/-- An accepted chunk does what the feed does to its decoder, and nothing else. -/
theorem exec_dec_of_accepts {s : State} {i : Nat} {c : Bytes} (h : s.accepts i c.length) :
    ∃ t, exec (.dec i c) s = .next t ∧
      t.decoder i =
        { dbuf := residue ((s.decoder i).dbuf ++ c)
          regs := (s.decoder i).regs.feed c
          delivered := (s.decoder i).delivered ++ payloadsIn ((s.decoder i).dbuf ++ c) } ∧
      t.result = .decoded (resultOf (payloadsIn ((s.decoder i).dbuf ++ c))) ∧ OnlyInstance i s t := by
  refine ⟨_, feedChunk_next.2 ⟨h, rfl⟩, ?_, ?_, onlyInstance_finishInstance s i (decodedResult ((s.decoder i).feed c))⟩
  · rw [State.decoder_finishDecode_same, Decoder.feed_eq]
  · rw [State.finishDecode_result, Decoder.feed_eq]

/-- The spans and the residue are the stream, cut and not changed. -/
theorem flatten_frames_append_residue (X : Bytes) : (frames X).flatten ++ residue X = X := by
  induction X using stream_induction with
  | base N hN => simp [frames_zeroFree hN, residue_zeroFree hN]
  | step N X hN ih => simp [frames_append_delim hN, residue_append_delim hN, ih]

theorem length_frames (X : Bytes) : (frames X).length = X.count delim := by
  simp [frames, length_segments]

/-- Each span is a segment with the delimiter that ends it. -/
theorem exists_body_of_mem_frames {X F : Bytes} (h : F ∈ frames X) : ∃ N, F = N ++ [delim] ∧ delim ∉ N := by
  obtain ⟨N, hN, rfl⟩ := List.mem_map.1 h
  exact ⟨N, rfl, delim_not_mem_of_mem_segments (List.mem_of_mem_dropLast hN)⟩

/-- What a zero-free buffer holds goes in front of the first span of the chunk. -/
theorem frames_append_of_zeroFree {B : Bytes} (h : delim ∉ B) (c : Bytes) :
    frames (B ++ c) =
      match frames c with
      | [] => []
      | F :: Fs => (B ++ F) :: Fs := by
  rcases exists_first_zero c with hc | ⟨N, Y, rfl, hN⟩
  · have hBc : delim ∉ B ++ c := by simp [h, hc]
    rw [frames_zeroFree hBc, frames_zeroFree hc]
  · have hBN : delim ∉ B ++ N := by simp [h, hN]
    rw [← List.append_assoc, frames_append_delim hBN, frames_append_delim hN, List.append_assoc]

/-- Settles O13: the drain leaves the residue of the buffer with the chunk and collects the payloads of its spans. -/
theorem decIsTheClosedForm : Obligations.DecIsTheClosedForm := by
  constructor
  · exact fun X => ⟨flatten_frames_append_residue X, delim_not_mem_residue X, length_frames X,
      fun _ => exists_body_of_mem_frames⟩
  · rintro s i c _ _ haccepts rfl rfl
    obtain ⟨t, ht, hdecoder, hresult, honly⟩ := exec_dec_of_accepts haccepts
    refine ⟨t, ht, ?_, ?_, hresult, ?_, honly, fun hB => frames_append_of_zeroFree hB c⟩
    · rw [hdecoder]
    · rw [hdecoder]
      exact delim_not_mem_residue _
    · rw [hdecoder]
      rfl

theorem payloadsIn_zeroFree {N : Bytes} (h : delim ∉ N) : payloadsIn N = [] := by
  simp [payloadsIn, frames_zeroFree h]

/-- Settles O14: a zero-free buffer with a zero-free chunk behind it has no span and is its own residue. -/
theorem chunkWithoutZeroIsOnlyBuffered : Obligations.ChunkWithoutZeroIsOnlyBuffered := by
  intro s i c haccepts hbuffer hc
  have hfree : delim ∉ (s.decoder i).dbuf ++ c := by simp [hbuffer, hc]
  obtain ⟨t, ht, hdecoder, hresult, honly⟩ := exec_dec_of_accepts haccepts
  rw [residue_zeroFree hfree, payloadsIn_zeroFree hfree, List.append_nil] at hdecoder
  rw [payloadsIn_zeroFree hfree] at hresult
  exact ⟨t, ht, by rw [hdecoder], hresult, by rw [hdecoder], honly⟩

/-- Where a stream is accepted, its end is accepted after its front: the residue is no longer than what was fed. -/
theorem State.accepts_of_residue {s t : State} {i : Nat} {c d : Bytes} (h : s.accepts i (c ++ d).length)
    (hconfig : t.config = s.config) (hdbuf : (t.decoder i).dbuf = residue ((s.decoder i).dbuf ++ c)) :
    t.accepts i d.length := by
  obtain ⟨hinstance, hchunk, hcap⟩ := h
  have hresidue := residue_length_le ((s.decoder i).dbuf ++ c)
  rw [List.length_append] at hchunk hcap hresidue
  rw [State.accepts, hconfig, hdbuf]
  exact ⟨hinstance, withinBound_mono (by omega) hchunk, withinBound_mono (by omega) hcap⟩

/-- Settles O20: the residue, the payloads and the registers of a stream are those of its end fed after its front. -/
theorem decDistributesOverConcatenation : Obligations.DecDistributesOverConcatenation := by
  intro s i c d haccepts
  have hfront : s.accepts i c.length := State.accepts_mono (by simp) haccepts
  obtain ⟨t, ht, hdecoderT, hresultT, -, -, hconfigT, -⟩ := exec_dec_of_accepts hfront
  have hend : t.accepts i d.length := State.accepts_of_residue haccepts hconfigT (by rw [hdecoderT])
  obtain ⟨u, hu, hdecoderU, hresultU, -⟩ := exec_dec_of_accepts hend
  obtain ⟨v, hv, hdecoderV, hresultV, -⟩ := exec_dec_of_accepts haccepts
  refine ⟨t, u, v, _, _, _, ht, hu, hv, ?_, hresultT, hresultU, hresultV, ?_⟩
  · rw [hdecoderU, hdecoderV, hdecoderT, ← List.append_assoc, residue_append (_ ++ c), Regs.feed_append,
      payloadsIn_append (_ ++ c), List.append_assoc]
  · rw [hdecoderT, payloadsOf_resultOf, payloadsOf_resultOf, payloadsOf_resultOf, ← List.append_assoc,
      payloadsIn_append]

/-! ## `RST` -/

/-- The span `[00]` is malformed (R94, R102 case c). -/
theorem decodeFrame_delim : decodeFrame [delim] = none := rfl

theorem residue_delim : residue [delim] = [] := residue_append_delim (N := []) List.not_mem_nil []

theorem payloadsIn_delim : payloadsIn [delim] = [] := by
  simp [payloadsIn, frames, segments, decodeFrame_delim]

theorem State.finishReset_finishReset (s : State) (i : Nat) : (s.finishReset i).finishReset i = s.finishReset i := by
  rw [State.finishReset, State.decoder_finishReset_same, Decoder.clear_clear]
  simp [State.finishReset, State.setDecoder]

/-- Settles O2: `RST` clears its decoder, which a second one finds cleared, and a delimiter after it ends an empty
span. -/
theorem rstDiscardsTheResidueSilently : Obligations.RstDiscardsTheResidueSilently := by
  intro s i hi
  have hdecoder : (s.finishReset i).decoder i = (s.decoder i).clear := s.decoder_finishReset_same i
  refine ⟨s.finishReset i, exec_rst_next.2 ⟨hi, rfl⟩, ?_, ?_, ?_, rfl, ?_, ?_, ?_, fun haccepts => ?_⟩
  · rw [hdecoder, Decoder.clear_dbuf]
  · rw [hdecoder, Decoder.clear_regs]
  · rw [hdecoder, Decoder.clear_delivered]
  · exact onlyInstance_finishInstance s i ((s.decoder i).clear, .done)
  · rintro ⟨hdbuf, hregs⟩
    rw [hdecoder, Decoder.clear, ← hdbuf, ← hregs]
  · exact exec_rst_next.2 ⟨hi, s.finishReset_finishReset i⟩
  · obtain ⟨u, hu, hdecoderU, hresultU, -⟩ := exec_dec_of_accepts (c := [delim]) haccepts
    rw [hdecoder, Decoder.clear_dbuf, List.nil_append, payloadsIn_delim] at hdecoderU hresultU
    exact ⟨u, hu, hresultU, by rw [hdecoderU, residue_delim], by simp [hdecoderU]⟩

end Sys2Proof.Machine
end

section
/-! The blocks of a span body (R65, R106), and `decode_frame` in terms of them (R94). -/

namespace Sys2Proof.Machine

/-! ## Along the blocks -/

theorem toNat_pos_of_ne_delim {L : Byte} (h : L ≠ delim) : 0 < L.toNat :=
  Nat.pos_of_ne_zero fun h0 => h (BitVec.eq_of_toNat_eq h0)

/-- Induction along a zero-free body: its end, a block that reaches past its end, a block in front of the rest. -/
theorem body_induction {Q : (N : Bytes) → delim ∉ N → Prop} (nil : Q [] List.not_mem_nil)
    (overrun : ∀ L T (h : delim ∉ L :: T), T.length + 1 < L.toNat → Q (L :: T) h)
    (block : ∀ L D M (h : delim ∉ L :: (D ++ M)) (hM : delim ∉ M), L ≠ delim → delim ∉ D →
      D.length + 1 = L.toNat → Q M hM → Q (L :: (D ++ M)) h)
    (N : Bytes) (hN : delim ∉ N) : Q N hN := by
  induction h : N.length using Nat.strong_induction_on generalizing N with
  | _ n ih =>
    cases N with
    | nil => exact nil
    | cons L T =>
      by_cases hfit : T.length + 1 < L.toNat
      · exact overrun L T hN hfit
      · obtain ⟨D, M, rfl, hD⟩ : ∃ D M, T = D ++ M ∧ D.length = L.toNat - 1 :=
          ⟨_, _, (List.take_append_drop _ T).symm, List.length_take_of_le (by omega)⟩
        obtain ⟨hL, hT⟩ := delim_not_mem_cons.1 hN
        obtain ⟨hDfree, hMfree⟩ : delim ∉ D ∧ delim ∉ M := by simpa using hT
        have hpos := toNat_pos_of_ne_delim hL.symm
        have hM : M.length < n := by rw [← h, List.length_cons, List.length_append]; omega
        exact block L D M hN hMfree hL.symm hDfree (by omega) (ih _ hM M hMfree rfl)

/-- The block fills its code's count: the code byte and `code - 1` data bytes (R62). -/
def Fits (p : Byte × Bytes) : Prop := p.2.length + 1 = p.1.toNat

/-- The blocks as they stand on the stream: `blocksOf_eq_some_iff` ties it to `blocksOf`. -/
def bytesOfBlocks (bs : List (Byte × Bytes)) : Bytes := (bs.map (fun p => p.1 :: p.2)).flatten

@[simp] theorem bytesOfBlocks_nil : bytesOfBlocks [] = [] := rfl

@[simp] theorem bytesOfBlocks_cons (p : Byte × Bytes) (bs : List (Byte × Bytes)) :
    bytesOfBlocks (p :: bs) = p.1 :: (p.2 ++ bytesOfBlocks bs) := rfl

/-- A zero-free body is made of blocks, up to its end or up to one that reaches past it. -/
theorem exists_blocks {N : Bytes} (hN : delim ∉ N) :
    ∃ bs, (∀ p ∈ bs, Fits p) ∧ (N = bytesOfBlocks bs ∨
      ∃ (L : Byte) (T : Bytes), N = bytesOfBlocks bs ++ L :: T ∧ T.length + 1 < L.toNat) := by
  induction N, hN using body_induction with
  | nil => exact ⟨[], by simp, .inl rfl⟩
  | overrun L T _ hover => exact ⟨[], by simp, .inr ⟨L, T, rfl, hover⟩⟩
  | block L D M _ _ _ _ hD ih =>
    obtain ⟨bs, hbs, hM⟩ := ih
    refine ⟨(L, D) :: bs, List.forall_mem_cons.2 ⟨hD, hbs⟩, ?_⟩
    rcases hM with rfl | ⟨L', T', rfl, hover⟩
    · exact .inl rfl
    · exact .inr ⟨L', T', by simp, hover⟩

/-! ## The chain of code positions -/

theorem blocksWithin_overrun {L : Byte} {T : Bytes} (h : T.length + 1 < L.toNat) (n : Nat) :
    blocksWithin n (L :: T) = none := by
  cases n with
  | zero => rfl
  | succ n => exact if_pos (by omega)

theorem blocksWithin_block {L : Byte} {D : Bytes} (h : Fits (L, D)) (n : Nat) (M : Bytes) :
    blocksWithin (n + 1) (L :: (D ++ M)) = (blocksWithin n M).map ((L, D) :: ·) := by
  have hlength : L.toNat - 1 = D.length := by rw [← h, Nat.add_sub_cancel]
  simp [blocksWithin, hlength]

/-- Bounds on the number of blocks that are at least the number of bytes give the same blocks. -/
theorem blocksWithin_congr {m n : Nat} {N : Bytes} (hm : N.length ≤ m) (hn : N.length ≤ n) :
    blocksWithin m N = blocksWithin n N := by
  induction m generalizing n N with
  | zero =>
    obtain rfl : N = [] := List.length_eq_zero_iff.1 (by omega)
    cases n <;> rfl
  | succ m ih =>
    cases N with
    | nil => cases n <;> rfl
    | cons L W =>
      rw [List.length_cons] at hm hn
      obtain ⟨n, rfl⟩ : ∃ k, n = k + 1 := ⟨n - 1, by omega⟩
      have hrest : (W.drop (L.toNat - 1)).length ≤ W.length := by rw [List.length_drop]; omega
      simp only [blocksWithin, ih (n := n) (hrest.trans (by omega)) (hrest.trans (by omega))]

@[simp] theorem blocksOf_nil : blocksOf [] = some [] := rfl

theorem blocksOf_overrun {L : Byte} {T : Bytes} (h : T.length + 1 < L.toNat) : blocksOf (L :: T) = none :=
  blocksWithin_overrun h _

theorem blocksOf_block {L : Byte} {D : Bytes} (h : Fits (L, D)) (M : Bytes) :
    blocksOf (L :: (D ++ M)) = (blocksOf M).map ((L, D) :: ·) := by
  rw [blocksOf, List.length_cons, blocksWithin_block h, blocksWithin_congr (by simp) (Nat.le_refl _), ← blocksOf]

theorem blocksOf_bytesOfBlocks_append {bs : List (Byte × Bytes)} (h : ∀ p ∈ bs, Fits p) (R : Bytes) :
    blocksOf (bytesOfBlocks bs ++ R) = (blocksOf R).map (bs ++ ·) := by
  induction bs with
  | nil => simp
  | cons p bs ih =>
    obtain ⟨hp, hbs⟩ := List.forall_mem_cons.1 h
    simp [blocksOf_block hp, ih hbs, Function.comp_def]

theorem blocksOf_bytesOfBlocks {bs : List (Byte × Bytes)} (h : ∀ p ∈ bs, Fits p) :
    blocksOf (bytesOfBlocks bs) = some bs := by
  simpa using blocksOf_bytesOfBlocks_append h []

theorem blocksOf_bytesOfBlocks_overrun {bs : List (Byte × Bytes)} (h : ∀ p ∈ bs, Fits p) {L : Byte} {T : Bytes}
    (hover : T.length + 1 < L.toNat) : blocksOf (bytesOfBlocks bs ++ L :: T) = none := by
  rw [blocksOf_bytesOfBlocks_append h, blocksOf_overrun hover, Option.map_none]

theorem blocksOf_eq_some_iff {N : Bytes} (hN : delim ∉ N) {bs : List (Byte × Bytes)} :
    blocksOf N = some bs ↔ N = bytesOfBlocks bs ∧ ∀ p ∈ bs, Fits p := by
  constructor
  · intro h
    obtain ⟨bs', hbs', rfl | ⟨L, T, rfl, hover⟩⟩ := exists_blocks hN
    · rw [blocksOf_bytesOfBlocks hbs', Option.some.injEq] at h
      exact h ▸ ⟨rfl, hbs'⟩
    · rw [blocksOf_bytesOfBlocks_overrun hbs' hover] at h
      cases h
  · rintro ⟨rfl, hbs⟩
    exact blocksOf_bytesOfBlocks hbs

theorem blocksOf_eq_none_iff {N : Bytes} (hN : delim ∉ N) :
    blocksOf N = none ↔ ∃ (bs : List (Byte × Bytes)) (L : Byte) (T : Bytes),
      (∀ p ∈ bs, Fits p) ∧ N = bytesOfBlocks bs ++ L :: T ∧ T.length + 1 < L.toNat := by
  constructor
  · intro h
    obtain ⟨bs, hbs, rfl | ⟨L, T, hbad⟩⟩ := exists_blocks hN
    · rw [blocksOf_bytesOfBlocks hbs] at h
      cases h
    · exact ⟨bs, L, T, hbs, hbad⟩
  · rintro ⟨bs, L, T, hbs, rfl, hover⟩
    exact blocksOf_bytesOfBlocks_overrun hbs hover

theorem blocksOf_ne_some_nil {N : Bytes} (hN : delim ∉ N) (hne : N ≠ []) : blocksOf N ≠ some [] :=
  fun h => hne ((blocksOf_eq_some_iff hN).1 h).1

/-! ## The payload of the blocks -/

/-- The byte a block implies where another block follows it (R62). -/
def impliedZero (L : Byte) : Bytes := if impliesZero L then [delim] else []

theorem payloadOfBlocks_cons (L : Byte) (D : Bytes) {bs : List (Byte × Bytes)} (h : bs ≠ []) :
    payloadOfBlocks ((L, D) :: bs) = D ++ impliedZero L ++ payloadOfBlocks bs := by
  cases bs with
  | nil => exact absurd rfl h
  | cons p bs => rfl

/-- Each block gives up its code byte, and each one that implies a zero, but for the last block, gains it. -/
theorem length_payloadOfBlocks (bs : List (Byte × Bytes)) :
    (payloadOfBlocks bs).length + bs.length =
      (bytesOfBlocks bs).length + (bs.dropLast.filter (fun p => impliesZero p.1)).length := by
  induction bs with
  | nil => rfl
  | cons p bs ih =>
    obtain ⟨L, D⟩ := p
    cases bs with
    | nil => simp [payloadOfBlocks]
    | cons q bs =>
      rw [payloadOfBlocks_cons L D (by simp), List.dropLast_cons_of_ne_nil (by simp), bytesOfBlocks_cons]
      by_cases hz : impliesZero L = true <;> simp [impliedZero, hz] at ih ⊢ <;> omega

/-- What the loop answers at a code position, by the blocks of the rest `N` of the body: `output` and then their
payload. `spanLoop_payload` ties it to the loop of R94. -/
def payloadAfter (output N : Bytes) : Option Bytes := (blocksOf N).map (output ++ payloadOfBlocks ·)

theorem payloadAfter_overrun {L : Byte} {T : Bytes} (h : T.length + 1 < L.toNat) (output : Bytes) :
    payloadAfter output (L :: T) = none := by
  rw [payloadAfter, blocksOf_overrun h, Option.map_none]

theorem payloadAfter_last {L : Byte} {D : Bytes} (h : Fits (L, D)) (output : Bytes) :
    payloadAfter output (L :: (D ++ [])) = some (output ++ D) := by
  rw [payloadAfter, blocksOf_block h]
  rfl

theorem payloadAfter_block {L : Byte} {D M : Bytes} (h : Fits (L, D)) (hM : delim ∉ M) (hne : M ≠ [])
    (output : Bytes) :
    payloadAfter output (L :: (D ++ M)) = payloadAfter (output ++ D ++ impliedZero L) M := by
  rw [payloadAfter, blocksOf_block h, payloadAfter]
  cases hbs : blocksOf M with
  | none => rfl
  | some bs =>
    have hbsne : bs ≠ [] := by
      rintro rfl
      exact blocksOf_ne_some_nil hM hne hbs
    simp [payloadOfBlocks_cons L D hbsne]

/-! ## The loop of R94 -/

/-- A block that reaches past the body is malformed in both readings: too short, or with the delimiter in its data. -/
theorem spanLoop_overrun (rd : Reading) {L : Byte} {T : Bytes} (h : T.length + 1 < L.toNat) (n : Nat)
    (output : Bytes) : (spanLoop rd (n + 1) (L :: (T ++ [delim])) output).payload = none := by
  have htake : (T ++ [delim]).take (L.toNat - 1) = T ++ [delim] := List.take_of_length_le (by simp; omega)
  have hdata : (T ++ [delim]).contains delim = true := by simp
  simp only [spanLoop, htake, hdata, if_true]
  split_ifs <;> rfl

/-- A block of non-zero bytes that fits passes the tests of both readings, and the byte after it decides. -/
theorem spanLoop_block (rd : Reading) {L : Byte} {D : Bytes} (h : Fits (L, D)) (hL : L ≠ delim) (hD : delim ∉ D)
    (n : Nat) (x : Byte) (W output : Bytes) :
    spanLoop rd (n + 1) (L :: (D ++ x :: W)) output =
      if x = delim then .complete (output ++ D)
      else spanLoop rd n (x :: W) (output ++ D ++ impliedZero L) := by
  have hlength : D.length + 1 = L.toNat := h
  have hdata : L.toNat - 1 = D.length := by omega
  have hshort : tooShort rd (D.length + (W.length + 1) + 1) L = false := by
    cases rd <;> simp only [tooShort, decide_eq_false_iff_not] <;> omega
  simp [spanLoop, hL, hshort, hdata, hD, impliedZero]

/-- In both readings the loop answers what the blocks of a non-empty body give. -/
theorem spanLoop_payload (rd : Reading) {N : Bytes} (hN : delim ∉ N) (hne : N ≠ []) {n : Nat} (hn : N.length ≤ n)
    (output : Bytes) : (spanLoop rd n (N ++ [delim]) output).payload = payloadAfter output N := by
  induction N, hN using body_induction generalizing n output with
  | nil => exact absurd rfl hne
  | overrun L T _ hover =>
    obtain ⟨n, rfl⟩ : ∃ k, n = k + 1 := ⟨n - 1, by rw [List.length_cons] at hn; omega⟩
    rw [payloadAfter_overrun hover]
    exact spanLoop_overrun rd hover n output
  | block L D M _ hM hL hD hfit ih =>
    rw [List.length_cons, List.length_append] at hn
    obtain ⟨n, rfl⟩ : ∃ k, n = k + 1 := ⟨n - 1, by omega⟩
    rw [List.cons_append, List.append_assoc]
    cases M with
    | nil => rw [payloadAfter_last hfit, List.nil_append, spanLoop_block rd hfit hL hD, if_pos rfl, SpanOutcome.payload]
    | cons x M =>
      rw [payloadAfter_block hfit hM (by simp), ← ih (by simp) (n := n) (by omega), List.cons_append,
        spanLoop_block rd hfit hL hD, if_neg (delim_not_mem_cons.1 hM).1.symm]

theorem spanOutcome_payload (rd : Reading) {N : Bytes} (hN : delim ∉ N) :
    (spanOutcome rd (N ++ [delim])).payload = if N = [] then none else (blocksOf N).map payloadOfBlocks := by
  by_cases hne : N = []
  · rw [hne]
    rfl
  · rw [spanOutcome, spanLoop_payload rd hN hne (by simp), if_neg hne]
    rfl

/-- `decode_frame` in closed form (R106). -/
theorem decodeFrame_eq {N : Bytes} (hN : delim ∉ N) :
    decodeFrame (N ++ [delim]) = if N = [] then none else (blocksOf N).map payloadOfBlocks :=
  spanOutcome_payload .a hN

theorem decodeFrame_eq_none_iff {N : Bytes} (hN : delim ∉ N) :
    decodeFrame (N ++ [delim]) = none ↔ N = [] ∨ blocksOf N = none := by
  rw [decodeFrame_eq hN]
  split_ifs with hne <;> simp [hne]

/-- Settles O17: the loop takes the body block by block, and the payload's length is counted along the blocks. -/
theorem wellFormedSpanInClosedForm : Obligations.WellFormedSpanInClosedForm := by
  intro N hN
  refine ⟨decodeFrame_eq hN, fun bs => (blocksOf_eq_some_iff hN).symm, fun bs hbs => ?_, ?_⟩
  · rw [length_payloadOfBlocks, ((blocksOf_eq_some_iff hN).1 hbs).1]
  · rw [decodeFrame_eq_none_iff hN, blocksOf_eq_none_iff hN]
    rfl

end Sys2Proof.Machine
end

section
/-! The other forms of `decode_frame` return what the loop of R94 returns: reading B and the index form (R95), and the
machine of states and transitions (R96). -/

namespace Sys2Proof.Machine

theorem decodeFrame_eq_payloadAfter {N : Bytes} (hN : delim ∉ N) (hne : N ≠ []) :
    decodeFrame (N ++ [delim]) = payloadAfter [] N :=
  spanLoop_payload .a hN hne (by simp) []

/-! ## The index form -/

theorem indexLoop_overrun {L : Byte} {T : Bytes} (h : T.length + 1 < L.toNat) (Pre : Bytes) (n : Nat)
    (output : Bytes) : indexLoop (Pre ++ L :: (T ++ [delim])) (n + 1) Pre.length output = none := by
  have hpast : Pre.length + L.toNat > (Pre ++ L :: (T ++ [delim])).length - 1 := by simp; omega
  simp only [indexLoop, List.getD_append_right _ _ _ _ (Nat.le_refl _), Nat.sub_self, List.getD_cons_zero, if_pos hpast,
    ite_self]

/-- A block that fits moves the position past it, and the byte there decides. -/
theorem indexLoop_block {L : Byte} {D : Bytes} (h : Fits (L, D)) (hL : L ≠ delim) (Pre : Bytes) (n : Nat) (x : Byte)
    (W output : Bytes) :
    indexLoop (Pre ++ L :: (D ++ x :: W)) (n + 1) Pre.length output =
      if x = delim then some (output ++ D)
      else indexLoop ((Pre ++ L :: D) ++ x :: W) n (Pre ++ L :: D).length (output ++ D ++ impliedZero L) := by
  have hlength : D.length + 1 = L.toNat := h
  have hdata : L.toNat - 1 = D.length := by omega
  have hnext : Pre.length + L.toNat = (Pre ++ L :: D).length := by simp; omega
  have hcut : Pre ++ L :: (D ++ x :: W) = (Pre ++ L :: D) ++ x :: W := by simp
  have hcode : (Pre ++ L :: (D ++ x :: W)).getD Pre.length delim = L := by simp
  have hbyte : ((Pre ++ L :: D) ++ x :: W).getD (Pre ++ L :: D).length delim = x := by simp [-List.append_assoc]
  have hfits : ¬ (Pre ++ L :: D).length > (Pre ++ L :: (D ++ x :: W)).length - 1 := by simp
  have hcopy : ((Pre ++ L :: (D ++ x :: W)).drop (Pre.length + 1)).take D.length = D := by
    rw [← List.drop_drop, List.drop_left]
    simp
  simp only [indexLoop, hcode, if_neg hL, hnext, if_neg hfits, hdata, hcopy, impliedZero]
  rw [hcut, hbyte]

/-- From a code position, with the bytes before it in `Pre`, the index loop answers what the blocks of the rest give. -/
theorem indexLoop_eq {N : Bytes} (hN : delim ∉ N) (hne : N ≠ []) {n : Nat} (hn : N.length ≤ n) (Pre output : Bytes) :
    indexLoop (Pre ++ (N ++ [delim])) n Pre.length output = payloadAfter output N := by
  induction N, hN using body_induction generalizing n Pre output with
  | nil => exact absurd rfl hne
  | overrun L T _ hover =>
    obtain ⟨n, rfl⟩ : ∃ k, n = k + 1 := ⟨n - 1, by rw [List.length_cons] at hn; omega⟩
    rw [payloadAfter_overrun hover]
    exact indexLoop_overrun hover Pre n output
  | block L D M _ hM hL _ hfit ih =>
    rw [List.length_cons, List.length_append] at hn
    obtain ⟨n, rfl⟩ : ∃ k, n = k + 1 := ⟨n - 1, by omega⟩
    rw [List.cons_append, List.append_assoc]
    cases M with
    | nil => rw [payloadAfter_last hfit, List.nil_append, indexLoop_block hfit hL, if_pos rfl]
    | cons x M =>
      rw [payloadAfter_block hfit hM (by simp), ← ih (by simp) (n := n) (by omega) (Pre ++ L :: D), List.cons_append,
        indexLoop_block hfit hL, if_neg (delim_not_mem_cons.1 hM).1.symm]

theorem decodeFrame_eq_decodeFrameIndexed {N : Bytes} (hN : delim ∉ N) :
    decodeFrame (N ++ [delim]) = decodeFrameIndexed (N ++ [delim]) := by
  by_cases hne : N = []
  · rw [hne]
    rfl
  · rw [decodeFrame_eq_payloadAfter hN hne]
    exact (indexLoop_eq hN hne (by simp) [] []).symm

/-- Settles O15: both readings and the index form take the body block by block, and their tests fail at the same
block. -/
theorem spanReadingsAndIndexFormAgree : Obligations.SpanReadingsAndIndexFormAgree := fun N hN =>
  ⟨by rw [spanOutcome_payload .a hN, spanOutcome_payload .b hN], decodeFrame_eq_decodeFrameIndexed hN⟩

/-! ## The machine of R96 -/

/-- After `k` transitions, and ever after, the machine is in a terminal state that returns `r`. -/
def SpanMachine.EndsWithin (m : SpanMachine) (k : Nat) (r : Option Bytes) : Prop :=
  ∀ n, k ≤ n → (m.advanceN n).answer = some r

theorem SpanMachine.EndsWithin.mono {m : SpanMachine} {j k : Nat} {r : Option Bytes} (h : m.EndsWithin j r)
    (hjk : j ≤ k) : m.EndsWithin k r :=
  fun n hn => h n (Nat.le_trans hjk hn)

theorem SpanMachine.endsWithin_of_advance {m : SpanMachine} {k : Nat} {r : Option Bytes}
    (h : m.advance.EndsWithin k r) : m.EndsWithin (k + 1) r := by
  intro n hn
  obtain ⟨n, rfl⟩ : ∃ j, n = j + 1 := ⟨n - 1, by omega⟩
  exact h n (by omega)

/-- A terminal state stays. -/
theorem SpanMachine.advance_of_answer {m : SpanMachine} {r : Option Bytes} (h : m.answer = some r) :
    m.advance = m := by
  obtain ⟨control, work, code, output⟩ := m
  cases control with
  | done | drop => rfl
  | len | data | next => cases h

theorem SpanMachine.endsWithin_of_answer {m : SpanMachine} {r : Option Bytes} (h : m.answer = some r) :
    m.EndsWithin 0 r := by
  intro n _
  induction n with
  | zero => exact h
  | succ n ih => rw [SpanMachine.advanceN, SpanMachine.advance_of_answer h, ih (Nat.zero_le n)]

/-! The rows of the table of R96. -/

section
variable {L x : Byte} {W : Bytes} (code : Byte) (output : Bytes)

theorem SpanMachine.advance_len_overrun (h : W.length < L.toNat) :
    SpanMachine.advance ⟨.len, L :: W, code, output⟩ = ⟨.drop, L :: W, code, output⟩ := by
  simp only [SpanMachine.advance, if_pos h, ite_self]

theorem SpanMachine.advance_len_empty (hW : W ≠ []) :
    SpanMachine.advance ⟨.len, codeEmpty :: W, code, output⟩ = ⟨.next, W, codeEmpty, output⟩ := by
  have hfits : ¬ W.length < codeEmpty.toNat := Nat.not_lt.2 (List.length_pos_of_ne_nil hW)
  have hne : codeEmpty ≠ delim := by decide
  simp only [SpanMachine.advance, if_neg hne, if_neg hfits, if_true]

theorem SpanMachine.advance_len_data (hL : L ≠ delim) (hne : L ≠ codeEmpty) (h : L.toNat ≤ W.length) :
    SpanMachine.advance ⟨.len, L :: W, code, output⟩ = ⟨.data, W, L, output⟩ := by
  simp only [SpanMachine.advance, if_neg hL, if_neg (Nat.not_lt.2 h), if_neg hne]

theorem SpanMachine.advance_data :
    SpanMachine.advance ⟨.data, W, L, output⟩ =
      ⟨.next, W.drop (L.toNat - 1), L, output ++ W.take (L.toNat - 1)⟩ := rfl

theorem SpanMachine.advance_next_delim :
    SpanMachine.advance ⟨.next, delim :: W, L, output⟩ = ⟨.done, delim :: W, L, output⟩ := rfl

theorem SpanMachine.advance_next (hx : x ≠ delim) :
    SpanMachine.advance ⟨.next, x :: W, L, output⟩ = ⟨.len, x :: W, L, output ++ impliedZero L⟩ := if_neg hx
end

/-- From `S_LEN` a block that fits is copied, through `S_DATA` if it has data bytes, and `S_NEXT` looks at the byte
after it. -/
theorem SpanMachine.endsWithin_len_block {L : Byte} {D : Bytes} (h : Fits (L, D)) (hL : L ≠ delim) {x : Byte}
    {W output : Bytes} {k : Nat} {r : Option Bytes} (code : Byte)
    (hnext : SpanMachine.EndsWithin ⟨.next, x :: W, L, output ++ D⟩ k r) :
    SpanMachine.EndsWithin ⟨.len, L :: (D ++ x :: W), code, output⟩ (k + 2) r := by
  have hlength : D.length + 1 = L.toNat := h
  have hdata : L.toNat - 1 = D.length := by omega
  apply SpanMachine.endsWithin_of_advance
  by_cases hone : L = codeEmpty
  · obtain rfl : D = [] := List.length_eq_zero_iff.1 (by rw [← hdata, hone]; rfl)
    subst hone
    rw [List.nil_append, SpanMachine.advance_len_empty _ _ (by simp)]
    simpa using hnext.mono (Nat.le_succ k)
  · rw [SpanMachine.advance_len_data _ _ hL hone (by simp; omega)]
    apply SpanMachine.endsWithin_of_advance
    rwa [SpanMachine.advance_data, hdata, List.take_left, List.drop_left]

/-- From `S_LEN` the machine ends with what the blocks of the rest of the body give, in at most three transitions a
byte. -/
theorem SpanMachine.endsWithin_len {N : Bytes} (hN : delim ∉ N) (hne : N ≠ []) (code : Byte) (output : Bytes) :
    SpanMachine.EndsWithin ⟨.len, N ++ [delim], code, output⟩ (3 * N.length) (payloadAfter output N) := by
  induction N, hN using body_induction generalizing code output with
  | nil => exact absurd rfl hne
  | overrun L T _ hover =>
    have hdrop : SpanMachine.EndsWithin ⟨.len, L :: (T ++ [delim]), code, output⟩ 1 none := by
      apply SpanMachine.endsWithin_of_advance
      rw [SpanMachine.advance_len_overrun _ _ (by simpa using hover)]
      exact SpanMachine.endsWithin_of_answer rfl
    rw [payloadAfter_overrun hover]
    exact hdrop.mono (by rw [List.length_cons]; omega)
  | block L D M _ hM hL _ hfit ih =>
    rw [List.cons_append, List.append_assoc, List.length_cons, List.length_append]
    cases M with
    | nil =>
      have hdone : SpanMachine.EndsWithin ⟨.next, [delim], L, output ++ D⟩ 1 (some (output ++ D)) := by
        apply SpanMachine.endsWithin_of_advance
        rw [SpanMachine.advance_next_delim]
        exact SpanMachine.endsWithin_of_answer rfl
      rw [payloadAfter_last hfit]
      exact (SpanMachine.endsWithin_len_block hfit hL code hdone).mono (by omega)
    | cons x M =>
      have hnext : SpanMachine.EndsWithin ⟨.next, x :: (M ++ [delim]), L, output ++ D⟩ (3 * (x :: M).length + 1)
          (payloadAfter (output ++ D ++ impliedZero L) (x :: M)) := by
        apply SpanMachine.endsWithin_of_advance
        rw [SpanMachine.advance_next _ (delim_not_mem_cons.1 hM).1.symm]
        exact ih (by simp) L _
      rw [payloadAfter_block hfit hM (by simp)]
      exact (SpanMachine.endsWithin_len_block hfit hL code hnext).mono (by omega)

/-- Settles O16: the machine takes the body block by block, as the loop of R94 does. -/
theorem spanMachineEndsWithTheFrameResult : Obligations.SpanMachineEndsWithTheFrameResult := by
  intro N n hN hn
  by_cases hne : N = []
  · subst hne
    rw [List.nil_append, decodeFrame_delim]
    have hdrop : (SpanMachine.start [delim]).EndsWithin 1 none :=
      SpanMachine.endsWithin_of_advance (SpanMachine.endsWithin_of_answer rfl)
    exact hdrop n (by omega)
  · rw [decodeFrame_eq_payloadAfter hN hne]
    exact SpanMachine.endsWithin_len hN hne _ [] n (by omega)

end Sys2Proof.Machine
end

section
/-! The encoder byte by byte: the beats `ENC.PUSH` and `ENC.END` (R112, R113), and what the beats of a payload emit
(R116, R117). -/

namespace Sys2Proof.Machine

/-! ## One beat -/

theorem Encoder.closeSegment_of_run {e : Encoder} (h : e.run ≠ []) :
    e.closeSegment = (blockOf e.run, { run := [], flushed := false, sent := e.sent }) := by
  simp [Encoder.closeSegment, h]

theorem Encoder.closeSegment_of_run_nil {e : Encoder} (h : e.run = []) :
    e.closeSegment =
      (if e.flushed then [] else [codeEmpty], { run := [], flushed := false, sent := e.sent }) := by
  simp [Encoder.closeSegment, h]

theorem Encoder.push_delim (e : Encoder) : e.push delim = e.closeSegment := if_pos rfl

/-- The byte that brings the run to 254 emits it as a full block. -/
theorem Encoder.push_of_full {e : Encoder} {b : Byte} (hb : b ≠ delim) (h : e.run.length + 1 = 254) :
    e.push b = (codeFull :: (e.run ++ [b]), { run := [], flushed := true, sent := e.sent }) := by
  simp [Encoder.push, hb, maxChunk, h]

theorem Encoder.push_of_not_full {e : Encoder} {b : Byte} (hb : b ≠ delim) (h : e.run.length + 1 ≠ 254) :
    e.push b = ([], { e with run := e.run ++ [b] }) := by
  simp [Encoder.push, hb, maxChunk, h]

theorem exec_encPushZ (s : State) : exec .encPushZ s = .next (s.finishBeat s.encoder.closeSegment) := by
  rw [← Encoder.push_delim]
  rfl

theorem exec_encPushNZ (b : Byte) (s : State) : exec (.encPushNZ b) s = .next (s.finishBeat (s.encoder.push b)) := rfl

/-- Settles O9: the cases of closing a segment, and of a non-zero byte pushed. -/
theorem encPushExtendsOrClosesTheSegment : Obligations.EncPushExtendsOrClosesTheSegment := by
  intro s
  refine ⟨fun hrun => ?_, fun ⟨hrun, hflushed⟩ => ?_, fun ⟨hrun, hflushed⟩ => ?_,
    fun b hb => ⟨fun hfull => ?_, fun hheld => ?_⟩⟩
  · rw [exec_encPushZ, Encoder.closeSegment_of_run hrun]
    rfl
  · rw [exec_encPushZ, Encoder.closeSegment_of_run_nil hrun, hflushed]
    rfl
  · rw [exec_encPushZ, Encoder.closeSegment_of_run_nil hrun, hflushed]
    simp [State.finishBeat, Encoder.emit]
  · rw [exec_encPushNZ, Encoder.push_of_full hb hfull]
    rfl
  · rw [exec_encPushNZ, Encoder.push_of_not_full hb hheld]
    simp [State.finishBeat, Encoder.emit]

/-- Settles O10: the cases of closing a segment, with the delimiter behind. -/
theorem encEndClosesThePayload : Obligations.EncEndClosesThePayload := by
  rintro s _ rfl
  have hexec : exec .encEnd s = .next (s.finishBeat (s.encoder.closeSegment.1 ++ [delim], s.encoder.closeSegment.2)) :=
    rfl
  by_cases hrun : s.encoder.run = []
  · rw [hexec, Encoder.closeSegment_of_run_nil hrun, if_neg (not_not.2 hrun)]
    cases s.encoder.flushed <;> rfl
  · rw [hexec, Encoder.closeSegment_of_run hrun, if_pos hrun]
    rfl

/-! ## The beats of a payload -/

/-- The encoder after the beats `ENC.PUSH` of the bytes of `Q`: `run_pushBeats` ties it to the machine. -/
def Encoder.pushes (e : Encoder) (Q : Bytes) : Encoder := Q.foldl (fun e b => (e.push b).2.emit (e.push b).1) e

@[simp] theorem Encoder.pushes_nil (e : Encoder) : e.pushes [] = e := rfl

@[simp] theorem Encoder.pushes_cons (e : Encoder) (b : Byte) (Q : Bytes) :
    e.pushes (b :: Q) = ((e.push b).2.emit (e.push b).1).pushes Q := rfl

theorem Encoder.pushes_append (e : Encoder) (Q R : Bytes) : e.pushes (Q ++ R) = (e.pushes Q).pushes R :=
  List.foldl_append

/-- The symbol of a byte pushes it, zero or not. -/
theorem exec_decode_pushSymbol (b : Byte) (s : State) :
    exec (decode (.encSymbol (encSymbolOf false b))) s = .next (s.finishBeat (s.encoder.push b)) := by
  by_cases hb : b = delim
  · subst hb
    rfl
  · rw [decode, decodeEncSymbol_encSymbolOf_false hb]
    rfl

theorem step_of_pushBeat {s : State} {b : Byte} {rest : List Transfer}
    (hpending : s.pending = .encSymbol (encSymbolOf false b) :: rest) :
    step s = .next (({ s with pending := rest } : State).finishBeat (s.encoder.push b)) := by
  rw [step_of_pending_cons hpending, exec_decode_pushSymbol]

/-- The push beats of `Q` drive the encoder alone; the run goes on from there. -/
theorem run_pushBeats {Q : Bytes} {s : State} {rest : List Transfer}
    (hpending : s.pending = Q.map (fun b => .encSymbol (encSymbolOf false b)) ++ rest) :
    ∃ t, (∀ k, Host.Core.run Sys2Proof.core (Q.length + k) s = Host.Core.run Sys2Proof.core k t) ∧
      t.encoder = s.encoder.pushes Q ∧ t.pending = rest ∧ t.decoders = s.decoders ∧ t.config = s.config := by
  induction Q generalizing s with
  | nil => exact ⟨s, by simp, rfl, hpending, rfl, rfl⟩
  | cons b Q ih =>
    have hstep := step_of_pushBeat hpending
    obtain ⟨t, hrun, ht⟩ := ih (s := State.finishBeat { s with pending := _ } (s.encoder.push b)) rfl
    refine ⟨t, fun k => ?_, ht⟩
    rw [List.length_cons, Nat.add_right_comm, run_succ _ hstep]
    exact hrun k

/-! ## What has been emitted -/

/-- The full chunks of a segment, which are emitted before it is closed (R117). -/
def fullChunks (S : Bytes) : List Bytes := (chunks254 S).take (S.length / 254)

/-- The rest of a segment behind its full chunks, which `run` holds (R117). -/
def openChunk (S : Bytes) : Bytes := S.drop (254 * (S.length / 254))

theorem fullChunks_of_lt {S : Bytes} (h : S.length < 254) : fullChunks S = [] := by
  rw [fullChunks, Nat.div_eq_of_lt h, List.take_zero]

theorem openChunk_of_lt {S : Bytes} (h : S.length < 254) : openChunk S = S := by
  rw [openChunk, Nat.div_eq_of_lt h, Nat.mul_zero, List.drop_zero]

theorem fullChunks_append {c : Bytes} (hc : c.length = 254) (S : Bytes) : fullChunks (c ++ S) = c :: fullChunks S := by
  have hcount : (c ++ S).length / 254 = S.length / 254 + 1 := by rw [List.length_append]; omega
  rw [fullChunks, hcount]
  by_cases hS : S = []
  · subst hS
    simp [chunks254_of_length_le hc.le, fullChunks]
  · rw [chunks254_append hc hS, List.take_succ_cons, fullChunks]

theorem openChunk_append {c : Bytes} (hc : c.length = 254) (S : Bytes) : openChunk (c ++ S) = openChunk S := by
  have hcount : 254 * ((c ++ S).length / 254) = c.length + 254 * (S.length / 254) := by
    rw [List.length_append]; omega
  rw [openChunk, hcount, List.drop_length_add_append, openChunk]

/-- Induction along a segment by its full chunks alone. -/
theorem fullChunks_induction {Q : Bytes → Prop} (base : ∀ S, S.length < 254 → Q S)
    (step : ∀ c S, c.length = 254 → Q S → Q (c ++ S)) (S : Bytes) : Q S := by
  induction S using segment_induction with
  | base S hS =>
    rcases Nat.lt_or_eq_of_le hS with h | h
    · exact base S h
    · rw [← List.append_nil S]
      exact step S [] h (base [] (by simp))
  | step c S hc _ ih => exact step c S hc ih

/-- Non-zero bytes that do not fill the block are held back. -/
theorem Encoder.pushes_of_lt {e : Encoder} {D : Bytes} (hD : delim ∉ D) (h : e.run.length + D.length < 254) :
    e.pushes D = { e with run := e.run ++ D } := by
  induction D generalizing e with
  | nil => simp
  | cons b D ih =>
    obtain ⟨hb, hD⟩ := delim_not_mem_cons.1 hD
    rw [List.length_cons] at h
    rw [Encoder.pushes_cons, Encoder.push_of_not_full hb.symm (by omega), ih hD (by simp; omega)]
    simp [Encoder.emit]

/-- A full chunk from an empty run is emitted as one block. -/
theorem Encoder.pushes_fullChunk {e : Encoder} {c : Bytes} (hrun : e.run = []) (hc : delim ∉ c)
    (hlength : c.length = 254) :
    e.pushes c = { run := [], flushed := true, sent := e.sent ++ blockOf c } := by
  obtain ⟨D, b, rfl⟩ : ∃ D b, c = D ++ [b] :=
    ⟨_, _, (List.dropLast_append_getLast (by rintro rfl; simp at hlength)).symm⟩
  obtain ⟨hD, hb⟩ : delim ∉ D ∧ delim ≠ b := by simpa using hc
  rw [List.length_append, List.length_singleton] at hlength
  have hblock : blockOf (D ++ [b]) = codeFull :: (D ++ [b]) := by simp [blockOf, hlength, codeFull]
  rw [Encoder.pushes_append, Encoder.pushes_of_lt hD (by simp [hrun]; omega), hrun, Encoder.pushes_cons,
    Encoder.push_of_full hb.symm (by simpa using hlength), hblock]
  rfl

/-- From an empty run, a segment's full chunks are emitted and the rest of it is held back. -/
theorem Encoder.pushes_segment {S : Bytes} (hS : delim ∉ S) {e : Encoder} (hrun : e.run = []) :
    e.pushes S =
      { run := openChunk S
        flushed := e.flushed || decide (254 ≤ S.length)
        sent := e.sent ++ ((fullChunks S).map blockOf).flatten } := by
  induction S using fullChunks_induction generalizing e with
  | base S h =>
    have hle : ¬ 254 ≤ S.length := by omega
    rw [Encoder.pushes_of_lt hS (by simpa [hrun] using h), fullChunks_of_lt h, openChunk_of_lt h]
    simp [hrun, hle]
  | step c S hc ih =>
    obtain ⟨hcfree, hSfree⟩ : delim ∉ c ∧ delim ∉ S := by simpa using hS
    rw [Encoder.pushes_append, Encoder.pushes_fullChunk hrun hcfree hc, ih hSfree rfl, fullChunks_append hc,
      openChunk_append hc]
    simp [hc]

theorem encseg_of_lt {S : Bytes} (hS : S ≠ []) (h : S.length < 254) : encseg S = blockOf S := by
  rw [encseg_eq, if_neg hS, chunks254_of_length_le h.le]
  simp

theorem encseg_append {c : Bytes} (hc : c.length = 254) (S : Bytes) :
    encseg (c ++ S) = blockOf c ++ if S = [] then [] else encseg S := by
  have hne : c ++ S ≠ [] := List.ne_nil_of_length_pos (by rw [List.length_append]; omega)
  rw [encseg_eq, if_neg hne]
  split_ifs with hS
  · simp [hS, chunks254_of_length_le hc.le]
  · simp [chunks254_append hc hS, encseg_eq, hS]

/-- From an empty run, a segment's bytes and what closing it emits are the segment's blocks; none are due where the
segment has ended with a full block already. -/
theorem Encoder.sent_pushes_append_close {S : Bytes} (hS : delim ∉ S) {e : Encoder} (hrun : e.run = []) :
    (e.pushes S).sent ++ (e.pushes S).closeSegment.1 =
      e.sent ++ if S = [] ∧ e.flushed = true then [] else encseg S := by
  induction S using fullChunks_induction generalizing e with
  | base S h =>
    rw [Encoder.pushes_of_lt hS (by simpa [hrun] using h), hrun, List.nil_append]
    by_cases hne : S = []
    · simp [Encoder.closeSegment_of_run_nil, hne, encseg]
    · simp [Encoder.closeSegment_of_run, hne, encseg_of_lt hne h]
  | step c S hc ih =>
    obtain ⟨hcfree, hSfree⟩ : delim ∉ c ∧ delim ∉ S := by simpa using hS
    have hne : c ≠ [] := by rintro rfl; simp at hc
    rw [Encoder.pushes_append, Encoder.pushes_fullChunk hrun hcfree hc, ih hSfree rfl, encseg_append hc]
    simp [hne]

/-! ## From idle registers -/

/-- The encoder with idle registers that has sent `z` (R115). -/
def Encoder.idle (z : Bytes) : Encoder := { run := [], flushed := false, sent := z }

/-- A segment and the zero behind it leave the registers idle. -/
theorem Encoder.pushes_idle_append_delim {N : Bytes} (hN : delim ∉ N) (z X : Bytes) :
    (Encoder.idle z).pushes (N ++ delim :: X) = (Encoder.idle (z ++ encseg N)).pushes X := by
  have hclose := Encoder.sent_pushes_append_close hN (e := .idle z) rfl
  rw [Encoder.pushes_append, Encoder.pushes_cons, Encoder.push_delim]
  simp only [Encoder.idle, Bool.false_eq_true, and_false, if_false] at hclose ⊢
  rw [← hclose]
  rfl

/-- The invariant of R117: from idle registers, the encoder after the beats `ENC.PUSH` of `Q`. -/
theorem Encoder.pushes_idle (z Q : Bytes) :
    (Encoder.idle z).pushes Q =
      { run := openChunk (residue Q)
        flushed := decide (254 ≤ (residue Q).length)
        sent :=
          z ++ ((segments Q).dropLast.map encseg).flatten ++ ((fullChunks (residue Q)).map blockOf).flatten } := by
  induction Q using stream_induction generalizing z with
  | base N hN =>
    rw [Encoder.pushes_segment hN rfl, residue_zeroFree hN, segments_zeroFree hN]
    simp [Encoder.idle]
  | step N X hN ih =>
    rw [Encoder.pushes_idle_append_delim hN, ih, residue_append_delim hN, segments_append_delim hN,
      List.dropLast_cons_of_ne_nil (segments_ne_nil X)]
    simp

/-- From idle registers, the beats of `P` emit its frame and leave the registers idle (R117). -/
theorem Encoder.finish_pushes_idle (z P : Bytes) :
    (((Encoder.idle z).pushes P).finish.2).emit ((Encoder.idle z).pushes P).finish.1 =
      Encoder.idle (z ++ encodeFrame P) := by
  induction P using stream_induction generalizing z with
  | base N hN =>
    have hclose := Encoder.sent_pushes_append_close hN (e := .idle z) rfl
    simp only [Encoder.idle, Bool.false_eq_true, and_false, if_false] at hclose ⊢
    simp [Encoder.emit, Encoder.finish, ← List.append_assoc, hclose, encodeFrame_zeroFree hN]
  | step N X hN ih => rw [Encoder.pushes_idle_append_delim hN, ih, encodeFrame_append_delim hN, List.append_assoc]

/-- Settles O11: the push beats lead to the encoder of R117's invariant, and `ENC.END` closes it. -/
theorem encBeatsEmitTheFrame : Obligations.EncBeatsEmitTheFrame := by
  intro s P rest hrun hflushed
  have hidle : s.encoder = .idle s.encoder.sent := by
    rw [Encoder.idle, ← hrun, ← hflushed]
  refine ⟨fun hpending => ?_, ?_⟩
  · rw [encBeats, List.append_assoc] at hpending
    obtain ⟨t, hrunP, hencoder, hrest, hdecoders, hconfig⟩ := run_pushBeats hpending
    have hstep : step t = .next (({ t with pending := rest } : State).finishBeat t.encoder.finish) :=
      step_of_pending_cons hrest
    refine ⟨_, (hrunP 1).trans (run_succ 0 hstep), ?_, rfl, hdecoders, hconfig⟩
    rw [State.finishBeat_encoder, hencoder, hidle]
    exact Encoder.finish_pushes_idle s.encoder.sent P
  · rintro Q _ rfl hpending
    obtain ⟨t, hrunQ, hencoder, -⟩ := run_pushBeats hpending
    refine ⟨t, hrunQ 0, ?_⟩
    rw [hencoder, hidle]
    exact Encoder.pushes_idle s.encoder.sent Q

end Sys2Proof.Machine
end

section
/-! The decoder byte by byte: `DEC.BYTE` (R118), the register form that represents the buffer (R119 to R121), the beats
of a chunk (R123), and the symbols of a physical `dec_out` (R122). -/

namespace Sys2Proof.Machine

/-! ## `DEC.BYTE` -/

theorem residue_of_span {N : Bytes} (hN : delim ∉ N) : residue (N ++ [delim]) = [] :=
  residue_append_delim hN []

theorem payloadsIn_of_span {N : Bytes} (hN : delim ∉ N) :
    payloadsIn (N ++ [delim]) = (decodeFrame (N ++ [delim])).toList := by
  rw [payloadsIn_append_delim hN, payloadsIn_zeroFree List.not_mem_nil, List.append_nil]

theorem resultOf_toList (r : Option Bytes) : resultOf r.toList = r.map (fun P => [P]) := by
  cases r <;> rfl

/-- Settles O26: a byte is a chunk of one byte, and the delimiter behind a zero-free buffer makes one span. -/
theorem decByteBuffersOrDecodesTheSpan : Obligations.DecByteBuffersOrDecodesTheSpan := by
  intro s i haccepts hbuffer
  refine ⟨fun b hb => ?_, ?_⟩
  · exact chunkWithoutZeroIsOnlyBuffered s i [b] haccepts hbuffer (by simpa using hb.symm)
  · obtain ⟨t, ht, hdecoder, hresult, honly⟩ := exec_dec_of_accepts (c := [delim]) haccepts
    rw [residue_of_span hbuffer, payloadsIn_of_span hbuffer] at hdecoder
    rw [payloadsIn_of_span hbuffer, resultOf_toList] at hresult
    exact ⟨t, ht, by rw [hdecoder], hresult, by rw [hdecoder], honly⟩

/-! ## The register form along a span body -/

/-- The payload so far of registers at a code position, with the implied zero of the block before, if there was one. -/
def Regs.payloadSoFar (r : Regs) : Bytes := if r.code ≠ 0x00#8 ∧ r.code ≠ codeFull then r.out ++ [delim] else r.out

theorem Regs.body_of_code {r : Regs} (h : r.rem = 0) (b : Byte) :
    r.body b = { code := b, rem := b.toNat - 1, out := r.payloadSoFar } := by
  simp [Regs.body, h, Regs.payloadSoFar]

theorem Regs.body_of_data {r : Regs} (h : 0 < r.rem) (b : Byte) :
    r.body b = { r with out := r.out ++ [b], rem := r.rem - 1 } := if_pos h

/-- Data bytes, as long as the block goes on, are copied. -/
theorem Regs.foldl_body_of_data {r : Regs} {D : Bytes} (h : D.length ≤ r.rem) :
    D.foldl Regs.body r = { r with out := r.out ++ D, rem := r.rem - D.length } := by
  induction D generalizing r with
  | nil => simp
  | cons b D ih =>
    rw [List.length_cons] at h
    rw [List.foldl_cons, Regs.body_of_data (by omega), ih (by dsimp; omega)]
    simp [Nat.sub_sub, Nat.add_comm]

/-- A block that fits brings the registers to the next code position. -/
theorem Regs.foldl_body_block {r : Regs} (hrem : r.rem = 0) {L : Byte} {D : Bytes} (h : Fits (L, D)) :
    (L :: D).foldl Regs.body r = { code := L, rem := 0, out := r.payloadSoFar ++ D } := by
  have hdata : L.toNat - 1 = D.length := by rw [← h, Nat.add_sub_cancel]
  rw [List.foldl_cons, Regs.body_of_code hrem, Regs.foldl_body_of_data hdata.ge]
  simp [hdata]

theorem Regs.payloadSoFar_of_block {L : Byte} (hL : L ≠ delim) (n : Nat) (out : Bytes) :
    Regs.payloadSoFar { code := L, rem := n, out := out } = out ++ impliedZero L := by
  have hL' : L ≠ 0#8 := hL
  by_cases hfull : L = codeFull <;> simp [Regs.payloadSoFar, impliedZero, impliesZero, hL', hfull]

/-- From a code position, the registers hold at the end of a non-empty body the payload of its blocks. -/
theorem Regs.payload_foldl_body {N : Bytes} (hN : delim ∉ N) (hne : N ≠ []) {r : Regs} (hrem : r.rem = 0) :
    (N.foldl Regs.body r).payload = payloadAfter r.payloadSoFar N := by
  induction N, hN using body_induction generalizing r with
  | nil => exact absurd rfl hne
  | overrun L T _ hover =>
    rw [payloadAfter_overrun hover, List.foldl_cons, Regs.body_of_code hrem,
      Regs.foldl_body_of_data (by dsimp; omega)]
    exact Regs.payload_eq_none (.inr (by dsimp; omega))
  | block L D M _ hM hL _ hfit ih =>
    rw [← List.cons_append, List.foldl_append, Regs.foldl_body_block hrem hfit, List.cons_append]
    by_cases hMne : M = []
    · subst hMne
      rw [payloadAfter_last hfit]
      exact Regs.payload_eq_some ⟨hL, rfl⟩
    · rw [payloadAfter_block hfit hM hMne, ih hMne rfl, Regs.payloadSoFar_of_block hL]

/-- The registers that represent a buffer hold the payload of the span that a delimiter would end (R121). -/
theorem Regs.payload_ofBuffer {N : Bytes} (hN : delim ∉ N) :
    (Regs.ofBuffer N).payload = decodeFrame (N ++ [delim]) := by
  by_cases hne : N = []
  · subst hne
    exact decodeFrame_delim.symm
  · rw [decodeFrame_eq_payloadAfter hN hne]
    exact Regs.payload_foldl_body hN hne rfl

/-! ## Both forms side by side -/

/-- Where the registers represent the buffer, a beat over the registers is the feed of its byte. -/
theorem Decoder.beat_eq_feed {d : Decoder} (hbuffer : delim ∉ d.dbuf) (hregs : d.regs = Regs.ofBuffer d.dbuf)
    (b : Byte) : d.beat b = d.feed [b] := by
  have hpayloads : (d.regs.beat b).2.toList = payloadsIn (d.dbuf ++ [b]) := by
    by_cases hb : b = delim
    · subst hb
      rw [payloadsIn_of_span hbuffer, ← Regs.payload_ofBuffer hbuffer, ← hregs]
      rfl
    · have hfree : delim ∉ d.dbuf ++ [b] := by simp [hbuffer, Ne.symm hb]
      rw [payloadsIn_zeroFree hfree]
      simp [Regs.beat, hb]
  have hdbuf := Decoder.beat_dbuf hbuffer b
  rw [Decoder.feed_eq, ← hdbuf, ← hpayloads]
  rfl

theorem feedByte_eq_feedChunk {s : State} {i : Nat} (hbuffer : delim ∉ (s.decoder i).dbuf)
    (hregs : (s.decoder i).regs = Regs.ofBuffer (s.decoder i).dbuf) (b : Byte) :
    feedByte i b s = feedChunk i [b] s := by
  rw [feedByte, Decoder.beat_eq_feed hbuffer hregs]
  rfl

/-- Registers that represent the buffer represent it after every chunk (R121). -/
theorem feedChunk_next_represents {s t : State} {i : Nat} {c : Bytes} (hbuffer : delim ∉ (s.decoder i).dbuf)
    (hregs : (s.decoder i).regs = Regs.ofBuffer (s.decoder i).dbuf) (h : feedChunk i c s = .next t) :
    (t.decoder i).regs = Regs.ofBuffer (t.decoder i).dbuf := by
  obtain ⟨-, rfl⟩ := feedChunk_next.1 h
  rw [State.decoder_finishDecode_same, Decoder.feed_eq]
  dsimp only
  rw [hregs, Regs.feed_ofBuffer hbuffer]

/-- Settles O31: each class of formats C and B is the beat of its byte, each `DEC.BYTE` the feed of its byte. -/
theorem registerFormRepresentsTheBuffer : Obligations.RegisterFormRepresentsTheBuffer := by
  intro s i hbuffer hregs
  have hbeat : ∀ b, feedChunk i [b] s = feedByte i b s := fun b => (feedByte_eq_feedChunk hbuffer hregs b).symm
  refine ⟨hbeat _, hbeat _, hbeat _, fun b _ => ⟨hbeat b, hbeat b⟩, fun t x _ ht hx => ?_⟩
  rcases hx with rfl | ⟨b, -, rfl⟩
  · exact feedChunk_next_represents hbuffer hregs (c := [delim]) ht
  · exact feedChunk_next_represents hbuffer hregs (c := [b]) ht

/-! ## The size of the register form -/

theorem Regs.ofBuffer_concat (N : Bytes) (b : Byte) : Regs.ofBuffer (N ++ [b]) = (Regs.ofBuffer N).body b :=
  List.foldl_append

theorem Regs.body_rem_le {r : Regs} (h : r.rem ≤ 254) (b : Byte) : (r.body b).rem ≤ 254 := by
  have hb : b.toNat < 256 := b.isLt
  by_cases hrem : 0 < r.rem
  · rw [Regs.body_of_data hrem]
    dsimp only
    omega
  · rw [Regs.body_of_code (by omega)]
    dsimp only
    omega

/-- A byte of a span adds at most one byte to `out`: itself, or the implied zero of the block before. -/
theorem Regs.body_length_out_le (r : Regs) (b : Byte) : (r.body b).out.length ≤ r.out.length + 1 := by
  by_cases hrem : 0 < r.rem
  · simp [Regs.body_of_data hrem]
  · rw [Regs.body_of_code (by omega), Regs.payloadSoFar]
    split_ifs <;> simp

theorem Regs.ofBuffer_rem_le (N : Bytes) : (Regs.ofBuffer N).rem ≤ 254 := by
  induction N using List.reverseRecOn with
  | nil => exact Nat.zero_le _
  | append_singleton N b ih =>
    rw [Regs.ofBuffer_concat]
    exact Regs.body_rem_le ih b

theorem Regs.ofBuffer_length_out_le (N : Bytes) : (Regs.ofBuffer N).out.length ≤ N.length := by
  induction N using List.reverseRecOn with
  | nil => exact Nat.zero_le _
  | append_singleton N b ih =>
    rw [Regs.ofBuffer_concat, List.length_append, List.length_singleton]
    exact (Regs.body_length_out_le _ b).trans (Nat.succ_le_succ ih)

/-- The first byte of a span is a code byte, and a later byte leaves `code` or replaces it. -/
theorem Regs.ofBuffer_code_ne_zero {N : Bytes} (hN : delim ∉ N) (hne : N ≠ []) : (Regs.ofBuffer N).code ≠ 0x00#8 := by
  induction N using List.reverseRecOn with
  | nil => exact absurd rfl hne
  | append_singleton N b ih =>
    obtain ⟨hNfree, hb⟩ : delim ∉ N ∧ delim ≠ b := by simpa using hN
    rw [Regs.ofBuffer_concat]
    by_cases hrem : 0 < (Regs.ofBuffer N).rem
    · have hNne : N ≠ [] := by rintro rfl; exact absurd hrem (Nat.lt_irrefl 0)
      rw [Regs.body_of_data hrem]
      exact ih hNfree hNne
    · rw [Regs.body_of_code (by omega)]
      exact hb.symm

/-- Settles O32: each byte of the buffer keeps the bounds. -/
theorem registerFormIsNoLargerThanTheBuffer : Obligations.RegisterFormIsNoLargerThanTheBuffer := fun N hN =>
  ⟨Regs.ofBuffer_rem_le N, Regs.ofBuffer_length_out_le N,
    not_imp_not.1 (Regs.ofBuffer_code_ne_zero hN), by rintro rfl; rfl⟩

/-! ## The beats of a chunk -/

theorem OnlyInstance.trans {i : Nat} {s t u : State} (hst : OnlyInstance i s t) (htu : OnlyInstance i t u) :
    OnlyInstance i s u := by
  obtain ⟨hdecoder, hencoder, hconfig, hpending⟩ := hst
  obtain ⟨hdecoder', hencoder', hconfig', hpending'⟩ := htu
  exact ⟨fun j hj => (hdecoder' j hj).trans (hdecoder j hj), hencoder'.trans hencoder, hconfig'.trans hconfig,
    hpending'.trans hpending⟩

/-- Feeding the empty chunk drains nothing from a zero-free buffer. -/
theorem Decoder.feed_nil {d : Decoder} (h : delim ∉ d.dbuf) : (d.feed []).1 = d := by
  rw [Decoder.feed_eq, List.append_nil, residue_zeroFree h, payloadsIn_zeroFree h, List.append_nil]
  rfl

/-- Feeding a chunk in two parts leaves the decoder as feeding it whole (R103). -/
theorem Decoder.feed_append (d : Decoder) (c c' : Bytes) : (d.feed (c ++ c')).1 = ((d.feed c).1.feed c').1 := by
  simp only [Decoder.feed_eq, ← List.append_assoc, residue_append (_ ++ c), payloadsIn_append (_ ++ c),
    Regs.feed_append]

/-- The symbol of a byte is the chunk of that byte, zero or not. -/
theorem exec_decode_decSymbol (i : Nat) (b : Byte) (s : State) :
    exec (decode (.decSymbol i b)) s = exec (.dec i [b]) s := by
  by_cases hb : b = delim
  · subst hb
    rfl
  · rw [decode, decodeDecSymbol_of_ne hb]
    rfl

/-- The beats of a chunk leave the decoder as the chunk does, and nothing else changes. -/
theorem run_decBeats {c : Bytes} {s : State} {i : Nat} {rest : List Transfer}
    (hpending : s.pending = decBeats i c ++ rest) (haccepts : s.accepts i c.length)
    (hbuffer : delim ∉ (s.decoder i).dbuf) :
    ∃ t, Host.Core.run Sys2Proof.core c.length s = .next t ∧ t.decoder i = ((s.decoder i).feed c).1 ∧
      OnlyInstance i { s with pending := rest } t := by
  induction c generalizing s with
  | nil =>
    obtain rfl : s.pending = rest := hpending
    exact ⟨s, rfl, (Decoder.feed_nil hbuffer).symm, fun _ _ => rfl, rfl, rfl, rfl⟩
  | cons b c ih =>
    have hfirst : ({ s with pending := decBeats i c ++ rest } : State).accepts i [b].length :=
      State.accepts_mono (by simp) haccepts
    obtain ⟨t, ht, hdecoder, -, honly⟩ := exec_dec_of_accepts hfirst
    have hfed : t.decoder i = ((s.decoder i).feed [b]).1 := by rw [hdecoder, Decoder.feed_eq]; rfl
    have hstep : step s = .next t := by
      rw [step_of_pending_cons (rest := decBeats i c ++ rest) hpending, exec_decode_decSymbol, ht]
    obtain ⟨hothers, hencoder, hconfig, htpending⟩ := honly
    have hrest : t.accepts i c.length := State.accepts_of_residue haccepts hconfig (by rw [hdecoder])
    obtain ⟨u, hu, hdecoderU, honlyU⟩ := ih htpending hrest (by rw [hdecoder]; exact delim_not_mem_residue _)
    refine ⟨u, ?_, ?_, OnlyInstance.trans (t := { t with pending := rest }) ⟨hothers, hencoder, hconfig, rfl⟩ honlyU⟩
    · rw [List.length_cons, run_succ _ hstep, hu]
    · rw [hdecoderU, hfed, ← Decoder.feed_append, List.singleton_append]

/-- Settles O33: both ways feed the decoder the same bytes. -/
theorem decBeatsDoWhatDecDoes : Obligations.DecBeatsDoWhatDecDoes := by
  intro s i c rest hpending haccepts hbuffer
  obtain ⟨t, ht, hdecoderT, honly⟩ := run_decBeats hpending haccepts hbuffer
  obtain ⟨u, hu, hdecoderU, hresult, -⟩ := exec_dec_of_accepts (s := { s with pending := rest }) haccepts
  rw [Decoder.feed_eq] at hdecoderT
  have ⟨_, _, _, hpendingT⟩ := honly
  exact ⟨t, u, ht, hu, hdecoderT.trans hdecoderU.symm, hpendingT, honly, _, by rw [hdecoderT]; rfl, hresult⟩

/-! ## The symbols of a physical `dec_out` -/

/-- The bit `eop` tells a marker from a payload byte. -/
theorem marker_ne_payloadSymbol (m b : Byte) : (1#1 ++ m : BitVec 9) ≠ 0#1 ++ b := by
  intro h
  have heop := congrArg (BitVec.extractLsb' 8 1) h
  rw [BitVec.extractLsb'_append_eq_left, BitVec.extractLsb'_append_eq_left] at heop
  exact absurd heop (by decide)

theorem payloadSymbol_injective {b b' : Byte} (h : (0#1 ++ b : BitVec 9) = 0#1 ++ b') : b = b' := by
  have hlow := congrArg (BitVec.setWidth 8) h
  rwa [BitVec.setWidth_append_eq_right, BitVec.setWidth_append_eq_right] at hlow

/-- Settles O34: along the payloads, the first marker in either stream is a marker in both. -/
theorem decOutSymbolsDetermineThePayload : Obligations.DecOutSymbolsDetermineThePayload := by
  intro m m' P P' Y Y' h
  induction P generalizing P' with
  | nil =>
    cases P' with
    | nil => exact ⟨rfl, (List.cons.inj h).2⟩
    | cons b' P' => exact absurd (List.cons.inj h).1 (marker_ne_payloadSymbol m b')
  | cons b P ih =>
    cases P' with
    | nil => exact absurd (List.cons.inj h).1.symm (marker_ne_payloadSymbol m' b)
    | cons b' P' =>
      obtain ⟨hsymbol, htail⟩ := List.cons.inj h
      obtain ⟨rfl, rfl⟩ := ih P' htail
      exact ⟨by rw [payloadSymbol_injective hsymbol], rfl⟩

end Sys2Proof.Machine
end

section
/-! What has appeared on an output port stays there (R46, R114, R139). -/

namespace Sys2Proof.Machine

/-- From `s` to `t` the output ports only gained. -/
def OutputsGrow (s t : State) : Prop :=
  s.encoder.sent <+: t.encoder.sent ∧ ∀ i, (s.decoder i).delivered <+: (t.decoder i).delivered

/-- Bytes appear on `enc_out`, perhaps none, and nothing on any `dec_out`. -/
theorem outputsGrow_of_sent {s t : State} {E : Bytes} (hsent : t.encoder.sent = s.encoder.sent ++ E)
    (hdecoders : t.decoders = s.decoders) : OutputsGrow s t := by
  refine ⟨⟨E, hsent.symm⟩, fun i => ⟨[], ?_⟩⟩
  rw [List.append_nil, State.decoder, State.decoder, hdecoders]

theorem outputsGrow_refl (s : State) : OutputsGrow s s :=
  outputsGrow_of_sent (List.append_nil _).symm rfl

theorem outputsGrow_finishBeat {beat : Encoder → Bytes × Encoder} (hbeat : Encoder.IgnoresSent beat) (s : State) :
    OutputsGrow s (s.finishBeat (beat s.encoder)) :=
  outputsGrow_of_sent (by rw [State.finishBeat_encoder, Encoder.emit_sent, hbeat.sent_eq]) rfl

/-- Payloads appear on the `dec_out` of decoder `i`, perhaps none, and nothing on any other port. -/
theorem outputsGrow_finishInstance {s : State} {i : Nat} {r : Decoder × Result} {Ps : List Bytes}
    (h : r.1.delivered = (s.decoder i).delivered ++ Ps) : OutputsGrow s (s.finishInstance i r) := by
  refine ⟨⟨[], List.append_nil _⟩, fun j => ?_⟩
  by_cases hj : j = i
  · rw [hj, State.decoder_finishInstance_same]
    exact ⟨Ps, h.symm⟩
  · have hother : (s.finishInstance i r).decoder j = s.decoder j := s.decoder_setDecoder_ne hj r.1
    exact ⟨[], by rw [hother, List.append_nil]⟩

/-- Every operation only adds to the outputs: `RST` delivers nothing and takes nothing back (R139). -/
theorem exec_next_outputsGrow {x : Instr} {s t : State} (h : exec x s = .next t) : OutputsGrow s t := by
  rcases exec_next_cases h with ⟨P, -, -, rfl⟩ | ⟨-, rfl⟩ | ⟨b, -, rfl⟩ | ⟨i, c, -, -, rfl⟩ | ⟨i, b, -, -, rfl⟩ |
    ⟨i, -, -, rfl⟩
  · exact outputsGrow_of_sent (s.encoder.emit_sent (encodeFrame P)) rfl
  · exact outputsGrow_finishBeat Encoder.ignoresSent_finish s
  · exact outputsGrow_finishBeat (Encoder.ignoresSent_push b) s
  · exact outputsGrow_finishInstance (r := decodedResult ((s.decoder i).feed c)) ((s.decoder i).feed_delivered c)
  · exact outputsGrow_finishInstance (r := decodedResult ((s.decoder i).beat b)) ((s.decoder i).beat_delivered b)
  · exact outputsGrow_finishInstance (r := ((s.decoder i).clear, .done)) (List.append_nil _).symm

/-- Settles O40: taking an operation off the ports shows nothing, and every operation only adds. -/
theorem outputsAreNeverTakenBack : Obligations.OutputsAreNeverTakenBack := by
  intro s t h
  rcases step_next_cases h with ⟨-, rfl⟩ | ⟨w, rest, -, h⟩
  · exact outputsGrow_refl t
  · exact exec_next_outputsGrow (s := { s with pending := rest }) h

end Sys2Proof.Machine
end

section
/-! The body of a frame (R84, R130), and what decoding it gives: the payload without the zeros after its offending
segments (R132, R133). -/

namespace Sys2Proof.Machine

/-! ## The body of a frame -/

/-- A frame without its delimiter: `encodeFrame_eq` ties it to `encodeFrame`. -/
def frameBody (P : Bytes) : Bytes := ((segments P).map encseg).flatten

theorem encodeFrame_eq (P : Bytes) : encodeFrame P = frameBody P ++ [delim] := rfl

theorem frameBody_zeroFree {N : Bytes} (h : delim ∉ N) : frameBody N = encseg N := by
  simp [frameBody, segments_zeroFree h]

theorem frameBody_append_delim {N : Bytes} (h : delim ∉ N) (X : Bytes) :
    frameBody (N ++ delim :: X) = encseg N ++ frameBody X := by
  simp [frameBody, segments_append_delim h]

/-- A segment of at most 254 bytes is one block, the empty segment too. -/
theorem encseg_of_length_le {S : Bytes} (h : S.length ≤ 254) : encseg S = blockOf S := by
  rw [encseg_eq]
  split_ifs with hS
  · rw [hS]
    rfl
  · simp [chunks254_of_length_le h]

theorem encseg_append_of_ne_nil {c S : Bytes} (hc : c.length = 254) (hS : S ≠ []) :
    encseg (c ++ S) = blockOf c ++ encseg S := by
  rw [encseg_append hc, if_neg hS]

theorem encseg_ne_nil (S : Bytes) : encseg S ≠ [] := by
  apply List.ne_nil_of_length_pos
  rw [length_encseg]
  omega

/-- The code byte of a block is one more than the length of its chunk (R83). -/
theorem toNat_code {c : Bytes} (hc : c.length ≤ 254) : (BitVec.ofNat 8 (c.length + 1)).toNat = c.length + 1 := by
  rw [BitVec.toNat_ofNat, Nat.mod_eq_of_lt (by omega)]

theorem code_ne_delim {c : Bytes} (hc : c.length ≤ 254) : BitVec.ofNat 8 (c.length + 1) ≠ delim := by
  intro h
  have hcode := toNat_code hc
  simp [h, delim] at hcode

/-- The block of a chunk fills its code's count. -/
theorem fits_code {c : Bytes} (hc : c.length ≤ 254) : Fits (BitVec.ofNat 8 (c.length + 1), c) :=
  (toNat_code hc).symm

theorem delim_not_mem_blockOf {c : Bytes} (hc : c.length ≤ 254) (hfree : delim ∉ c) : delim ∉ blockOf c :=
  delim_not_mem_cons.2 ⟨(code_ne_delim hc).symm, hfree⟩

theorem delim_not_mem_encseg {S : Bytes} (hS : delim ∉ S) : delim ∉ encseg S := by
  induction S using segment_induction with
  | base S hlength =>
    rw [encseg_of_length_le hlength]
    exact delim_not_mem_blockOf hlength hS
  | step c S hc hne ih =>
    obtain ⟨hcfree, hSfree⟩ : delim ∉ c ∧ delim ∉ S := by simpa using hS
    rw [encseg_append_of_ne_nil hc hne, List.mem_append, not_or]
    exact ⟨delim_not_mem_blockOf hc.le hcfree, ih hSfree⟩

theorem delim_not_mem_frameBody (P : Bytes) : delim ∉ frameBody P := by
  simp only [frameBody, List.mem_flatten, List.mem_map]
  rintro ⟨_, ⟨S, hS, rfl⟩, hmem⟩
  exact delim_not_mem_encseg (delim_not_mem_of_mem_segments hS) hmem

theorem frameBody_ne_nil (P : Bytes) : frameBody P ≠ [] := by
  apply List.ne_nil_of_length_pos
  have hlength := length_encodeFrame P
  rw [encodeFrame_eq, List.length_append, List.length_singleton] at hlength
  omega

theorem residue_encodeFrame (P : Bytes) : residue (encodeFrame P) = [] :=
  residue_of_span (delim_not_mem_frameBody P)

/-- Settles O6: the body is zero-free, so the delimiter ends the one span of the frame. -/
theorem frameHasItsOnlyZeroAtTheEnd : Obligations.FrameHasItsOnlyZeroAtTheEnd := by
  intro s P hbound
  have hfree := delim_not_mem_frameBody P
  refine ⟨_, encodeFrame P, frameBody P, exec_enc_next.2 ⟨hbound, rfl⟩, rfl, encodeFrame_eq P, hfree, ?_,
    residue_encodeFrame P⟩
  rw [encodeFrame_eq, frames_append_delim hfree, frames_zeroFree List.not_mem_nil]

/-! ## Offending segments -/

theorem offending_iff {S : Bytes} : offending S = true ↔ 0 < S.length ∧ S.length % 254 = 0 := by
  rw [offending, decide_eq_true_eq, List.length_pos_iff]
  rfl

theorem offending_iff_of_length_le {S : Bytes} (h : S.length ≤ 254) : offending S = true ↔ S.length = 254 := by
  rw [offending_iff]
  omega

/-- A full chunk in front does not change whether a segment is offending. -/
theorem offending_append {c S : Bytes} (hc : c.length = 254) (hS : S ≠ []) : offending (c ++ S) = offending S := by
  have hpos : 0 < S.length := List.length_pos_of_ne_nil hS
  rw [Bool.eq_iff_iff, offending_iff, offending_iff, List.length_append]
  omega

/-- An offending segment ends with a full chunk, so what follows it is cut as it would be alone. -/
theorem encseg_append_of_offending {S T : Bytes} (hS : offending S = true) (hT : T ≠ []) :
    encseg (S ++ T) = encseg S ++ encseg T := by
  induction S using segment_induction with
  | base S hlength =>
    have hfull : S.length = 254 := (offending_iff_of_length_le hlength).1 hS
    rw [encseg_append_of_ne_nil hfull hT, encseg_of_length_le hlength]
  | step c S hc hne ih =>
    rw [offending_append hc hne] at hS
    rw [List.append_assoc, encseg_append_of_ne_nil hc (by simp [hne]), ih hS, encseg_append_of_ne_nil hc hne,
      List.append_assoc]

/-- What ends on a segment boundary is encoded apart from what follows. -/
theorem encodeFrame_append_of_boundary (Q : Bytes) :
    ∃ E, ∀ Y, encodeFrame (Q ++ delim :: Y) = E ++ encodeFrame Y := by
  induction Q using stream_induction with
  | base N hN => exact ⟨encseg N, encodeFrame_append_delim hN⟩
  | step N X hN ih =>
    obtain ⟨E, hE⟩ := ih
    refine ⟨encseg N ++ E, fun Y => ?_⟩
    rw [List.append_assoc, List.cons_append, encodeFrame_append_delim hN, hE, List.append_assoc]

/-- At the start of a payload: the zero behind an offending segment leaves no trace in the frame. -/
theorem encodeFrame_offending_append {S : Bytes} (hfree : delim ∉ S) (hS : offending S = true) {b : Byte}
    (hb : b ≠ delim) (R : Bytes) : encodeFrame (S ++ delim :: b :: R) = encodeFrame (S ++ b :: R) := by
  rw [encodeFrame_append_delim hfree]
  rcases exists_first_zero (b :: R) with hR | ⟨N, Y, hsplit, hN⟩
  · have hSR : delim ∉ S ++ b :: R := by simp [hfree, delim_not_mem_cons.1 hR]
    rw [encodeFrame_zeroFree hR, encodeFrame_zeroFree hSR, encseg_append_of_offending hS (by simp),
      List.append_assoc]
  · have hne : N ≠ [] := by
      rintro rfl
      exact hb (List.cons.inj hsplit).1
    have hSN : delim ∉ S ++ N := by simp [hfree, hN]
    rw [hsplit, encodeFrame_append_delim hN, ← List.append_assoc S N, encodeFrame_append_delim hSN,
      encseg_append_of_offending hS hne, List.append_assoc]

/-- Settles O8: `Q` is encoded apart, and behind it the two payloads have one frame. -/
theorem frameForgetsTheZeroAfterAnOffendingSegment : Obligations.FrameForgetsTheZeroAfterAnOffendingSegment := by
  intro Q S b R hQ hfree hS hb
  have hstart : encodeFrame (S ++ delim :: b :: R) = encodeFrame (S ++ b :: R) :=
    encodeFrame_offending_append hfree hS hb R
  rcases hQ with rfl | ⟨Q, rfl⟩
  · simpa using hstart
  · obtain ⟨E, hE⟩ := encodeFrame_append_of_boundary Q
    simpa [hE] using hstart

/-! ## The lossy payload -/

/-- What the decoder puts between a segment and the next one: `payloadAfter_encseg_append` and `lossy_append_delim`
tie it to the model. -/
def zeroBehind (S : Bytes) : Bytes := if offending S then [] else [delim]

theorem lossy_zeroFree {N : Bytes} (h : delim ∉ N) : lossy N = N := by
  rw [lossy, segments_zeroFree h, joinLossy]

theorem joinLossy_cons (S : Bytes) {Ss : List Bytes} (h : Ss ≠ []) :
    joinLossy (S :: Ss) = S ++ zeroBehind S ++ joinLossy Ss := by
  cases Ss with
  | nil => exact absurd rfl h
  | cons T Ss => rfl

theorem lossy_append_delim {N : Bytes} (h : delim ∉ N) (X : Bytes) :
    lossy (N ++ delim :: X) = N ++ zeroBehind N ++ lossy X := by
  rw [lossy, segments_append_delim h, joinLossy_cons N (segments_ne_nil X), lossy]

theorem roundTrips_zeroFree {N : Bytes} (h : delim ∉ N) : roundTrips N = true := by
  simp [roundTrips, segments_zeroFree h]

theorem roundTrips_append_delim {N : Bytes} (h : delim ∉ N) (X : Bytes) :
    roundTrips (N ++ delim :: X) = (!offending N && roundTrips X) := by
  simp [roundTrips, segments_append_delim h, List.dropLast_cons_of_ne_nil (segments_ne_nil X)]

theorem length_lossy_le (P : Bytes) : (lossy P).length ≤ P.length := by
  induction P using stream_induction with
  | base N hN => rw [lossy_zeroFree hN]
  | step N X hN ih =>
    have hzero : (zeroBehind N).length ≤ 1 := by
      rw [zeroBehind]
      split_ifs <;> simp
    simp only [lossy_append_delim hN, List.length_append, List.length_cons]
    omega

/-- The lossy payload is the payload exactly when no zero is lost: a lost one would leave it shorter. -/
theorem lossy_eq_self_iff (P : Bytes) : lossy P = P ↔ roundTrips P = true := by
  induction P using stream_induction with
  | base N hN => simp [lossy_zeroFree hN, roundTrips_zeroFree hN]
  | step N X hN ih =>
    rw [lossy_append_delim hN, roundTrips_append_delim hN, List.append_assoc, List.append_cancel_left_eq]
    by_cases hoff : offending N = true
    · have hshorter : lossy X ≠ delim :: X := by
        intro h
        have hlength := length_lossy_le X
        rw [h, List.length_cons] at hlength
        omega
      simpa [zeroBehind, hoff] using hshorter
    · simpa [zeroBehind, hoff] using ih

/-! ## Decoding a frame -/

/-- The code of a full chunk alone implies no zero (R62). -/
theorem impliedZero_code {c : Bytes} (hc : c.length ≤ 254) :
    impliedZero (BitVec.ofNat 8 (c.length + 1)) = zeroBehind c := by
  have hcode : BitVec.ofNat 8 (c.length + 1) = codeFull ↔ offending c = true := by
    rw [offending_iff_of_length_le hc, ← BitVec.toNat_inj, toNat_code hc]
    exact Nat.succ_inj
  simp only [impliedZero, impliesZero, zeroBehind, decide_eq_true_eq, ne_eq, hcode, ite_not]

/-- At a code position, the blocks of a segment with more behind it give the segment and the zero behind it. -/
theorem payloadAfter_encseg_append {S M : Bytes} (hS : delim ∉ S) (hM : delim ∉ M) (hne : M ≠ []) (output : Bytes) :
    payloadAfter output (encseg S ++ M) = payloadAfter (output ++ S ++ zeroBehind S) M := by
  induction S using segment_induction generalizing output with
  | base S hlength =>
    rw [encseg_of_length_le hlength, ← impliedZero_code hlength]
    exact payloadAfter_block (fits_code hlength) hM hne output
  | step c S hc hSne ih =>
    obtain ⟨-, hSfree⟩ : delim ∉ c ∧ delim ∉ S := by simpa using hS
    have hrest : delim ∉ encseg S ++ M := by simp [delim_not_mem_encseg hSfree, hM]
    have hfull : zeroBehind c = [] := if_pos ((offending_iff_of_length_le hc.le).2 hc)
    have hbehind : zeroBehind (c ++ S) = zeroBehind S := by rw [zeroBehind, offending_append hc hSne, zeroBehind]
    rw [encseg_append_of_ne_nil hc hSne, List.append_assoc, blockOf, List.cons_append,
      payloadAfter_block (fits_code hc.le) hrest (by simp [hne]), impliedZero_code hc.le, hfull, List.append_nil,
      ih hSfree, hbehind, List.append_assoc output]

/-- At a code position, the blocks of the last segment give the segment. -/
theorem payloadAfter_encseg {S : Bytes} (hS : delim ∉ S) (output : Bytes) :
    payloadAfter output (encseg S) = some (output ++ S) := by
  induction S using segment_induction generalizing output with
  | base S hlength =>
    have hblock := payloadAfter_last (fits_code hlength) output
    rw [List.append_nil] at hblock
    rwa [encseg_of_length_le hlength, blockOf]
  | step c S hc hSne ih =>
    obtain ⟨hcfree, hSfree⟩ : delim ∉ c ∧ delim ∉ S := by simpa using hS
    have hfull : zeroBehind c = [] := if_pos ((offending_iff_of_length_le hc.le).2 hc)
    rw [encseg_append_of_ne_nil hc hSne, ← encseg_of_length_le hc.le,
      payloadAfter_encseg_append hcfree (delim_not_mem_encseg hSfree) (encseg_ne_nil S), ih hSfree, hfull,
      List.append_nil, List.append_assoc]

theorem payloadAfter_frameBody (output P : Bytes) : payloadAfter output (frameBody P) = some (output ++ lossy P) := by
  induction P using stream_induction generalizing output with
  | base N hN => rw [frameBody_zeroFree hN, payloadAfter_encseg hN, lossy_zeroFree hN]
  | step N X hN ih =>
    rw [frameBody_append_delim hN, payloadAfter_encseg_append hN (delim_not_mem_frameBody X) (frameBody_ne_nil X), ih,
      lossy_append_delim hN, List.append_assoc, List.append_assoc, List.append_assoc]

/-- The frame of a payload decodes to the lossy payload (R133). -/
theorem decodeFrame_encodeFrame (P : Bytes) : decodeFrame (encodeFrame P) = some (lossy P) := by
  rw [encodeFrame_eq, decodeFrame_eq_payloadAfter (delim_not_mem_frameBody P) (frameBody_ne_nil P),
    payloadAfter_frameBody, List.nil_append]

theorem payloadsIn_encodeFrame_append (P X : Bytes) : payloadsIn (encodeFrame P ++ X) = lossy P :: payloadsIn X := by
  have hfree := delim_not_mem_frameBody P
  rw [encodeFrame_eq, List.append_assoc, List.singleton_append, payloadsIn_append_delim hfree, ← encodeFrame_eq,
    decodeFrame_encodeFrame]
  rfl

theorem residue_encodeFrame_append (P X : Bytes) : residue (encodeFrame P ++ X) = residue X := by
  rw [encodeFrame_eq, List.append_assoc, List.singleton_append, residue_append_delim (delim_not_mem_frameBody P)]

theorem payloadsIn_encodeFrame (P : Bytes) : payloadsIn (encodeFrame P) = [lossy P] := by
  have h := payloadsIn_encodeFrame_append P []
  rwa [List.append_nil, payloadsIn_zeroFree List.not_mem_nil] at h

end Sys2Proof.Machine
end

section
/-! What the encoder and the decoder do together (R132, R133, R136, R137), and a stream cut into chunks (R134). -/

namespace Sys2Proof.Machine

/-! ## `DEC` on an empty buffer -/

/-- On an empty buffer, an accepted chunk is a stream of its own. -/
theorem exec_dec_of_empty {s : State} {i : Nat} {c : Bytes} (hempty : (s.decoder i).dbuf = [])
    (h : s.accepts i c.length) :
    ∃ t, exec (.dec i c) s = .next t ∧ (t.decoder i).dbuf = residue c ∧
      t.result = .decoded (resultOf (payloadsIn c)) ∧
      (t.decoder i).delivered = (s.decoder i).delivered ++ payloadsIn c := by
  obtain ⟨t, ht, hdecoder, hresult, -⟩ := exec_dec_of_accepts h
  rw [hempty, List.nil_append] at hdecoder hresult
  exact ⟨t, ht, by rw [hdecoder], hresult, by rw [hdecoder]⟩

/-- On an empty buffer, the frame of `P` gives `P'` and leaves nothing (R133). -/
theorem exec_dec_encodeFrame {s : State} {i : Nat} {P : Bytes} (hempty : (s.decoder i).dbuf = [])
    (h : s.accepts i (encodeFrame P).length) :
    ∃ t, exec (.dec i (encodeFrame P)) s = .next t ∧ t.result = .decoded (some [lossy P]) ∧
      (t.decoder i).dbuf = [] ∧ (t.decoder i).delivered = (s.decoder i).delivered ++ [lossy P] := by
  obtain ⟨t, ht, hdbuf, hresult, hdelivered⟩ := exec_dec_of_empty hempty h
  rw [residue_encodeFrame] at hdbuf
  rw [payloadsIn_encodeFrame] at hresult hdelivered
  exact ⟨t, ht, hresult, hdbuf, hdelivered⟩

/-- Settles O22: the frame decodes to the lossy payload, which is the payload exactly when no zero is lost. -/
theorem decOfEncLosesExactlyTheOffendingZeros : Obligations.DecOfEncLosesExactlyTheOffendingZeros :=
  ⟨fun _ _ _ => exec_dec_encodeFrame, lossy_eq_self_iff⟩

/-! ## The round trip -/

theorem roundTrips_iff (P : Bytes) :
    roundTrips P = true ↔ ∀ S ∈ (segments P).dropLast, ¬ (0 < S.length ∧ S.length % 254 = 0) := by
  simp only [roundTrips, List.all_eq_true, Bool.not_eq_true', ← offending_iff, Bool.not_eq_true]

/-- A segment with a zero behind it is shorter than the payload. -/
theorem length_lt_of_mem_dropLast_segments {P S : Bytes} (h : S ∈ (segments P).dropLast) : S.length < P.length := by
  induction P using stream_induction with
  | base N hN => simp [segments_zeroFree hN] at h
  | step N X hN ih =>
    rw [segments_append_delim hN, List.dropLast_cons_of_ne_nil (segments_ne_nil X), List.mem_cons] at h
    rw [List.length_append, List.length_cons]
    rcases h with rfl | h
    · omega
    · have hX := ih h
      omega

theorem roundTrips_of_length_lt {P : Bytes} (h : P.length < 255) : roundTrips P = true := by
  rw [roundTrips_iff]
  intro S hS
  have hlength := length_lt_of_mem_dropLast_segments hS
  omega

theorem roundTrips_replicate_delim (n : Nat) : roundTrips (List.replicate n delim) = true := by
  induction n with
  | zero => rfl
  | succ n ih =>
    have hfirst := roundTrips_append_delim List.not_mem_nil (List.replicate n delim)
    rw [List.replicate_succ]
    exact hfirst.trans ih

/-- Settles O23: `ENC` leaves the buffer empty, and `P'` is `P`. -/
theorem roundTripReturnsThePayload : Obligations.RoundTripReturnsThePayload := by
  refine ⟨?_, roundTrips_iff, fun _ => roundTrips_of_length_lt, fun _ => roundTrips_zeroFree,
    roundTrips_replicate_delim⟩
  intro s t i P F hP hempty henc hframe haccepts
  obtain ⟨-, rfl⟩ := exec_enc_next.1 henc
  obtain rfl : encodeFrame P = F := Result.frame.inj hframe
  obtain ⟨u, hu, hresult, hdbuf, -⟩ := exec_dec_encodeFrame (s := s.finishFrame (encodeFrame P)) hempty haccepts
  rw [(lossy_eq_self_iff P).2 hP] at hresult
  exact ⟨u, hu, hresult, hdbuf⟩

/-! ## Frames one after the other -/

theorem residue_flatten_encodeFrame (Ps : List Bytes) : residue (Ps.map encodeFrame).flatten = [] := by
  induction Ps with
  | nil => rfl
  | cons P Ps ih => rw [List.map_cons, List.flatten_cons, residue_encodeFrame_append, ih]

theorem payloadsIn_flatten_encodeFrame (Ps : List Bytes) :
    payloadsIn (Ps.map encodeFrame).flatten = Ps.map lossy := by
  induction Ps with
  | nil => rfl
  | cons P Ps ih => rw [List.map_cons, List.flatten_cons, payloadsIn_encodeFrame_append, ih, List.map_cons]

/-- Settles O24: each frame is a span that gives its `P'`. -/
theorem manyFramesInOneChunk : Obligations.ManyFramesInOneChunk := by
  intro s i Ps hempty haccepts
  obtain ⟨t, ht, hdbuf, hresult, -⟩ := exec_dec_of_empty hempty haccepts
  rw [residue_flatten_encodeFrame] at hdbuf
  rw [payloadsIn_flatten_encodeFrame] at hresult
  refine ⟨t, ht, hdbuf, by simpa [resultOf] using hresult, fun hPs => ?_⟩
  exact (List.map_congr_left fun P hP => (lossy_eq_self_iff P).2 (hPs P hP)).trans (List.map_id Ps)

/-! ## A frame behind anything that ends on a zero byte -/

theorem residue_of_ends_on_delim {M : Bytes} (h : M = [] ∨ ∃ M', M = M' ++ [delim]) : residue M = [] := by
  rcases h with rfl | ⟨M, rfl⟩
  · rfl
  · rw [residue_append, residue_of_span (delim_not_mem_residue M)]

/-- Settles O25: what ends on a zero byte leaves no residue in front of the frame. -/
theorem decodingRecoversAfterMalformedSpans : Obligations.DecodingRecoversAfterMalformedSpans := by
  intro s i M P hempty hM haccepts
  have hresidue : residue (M ++ encodeFrame P) = [] := by
    rw [residue_append, residue_of_ends_on_delim hM, List.nil_append, residue_encodeFrame]
  have hpayloads : payloadsIn (M ++ encodeFrame P) = payloadsIn M ++ [lossy P] := by
    rw [payloadsIn_append, residue_of_ends_on_delim hM, List.nil_append, payloadsIn_encodeFrame]
  obtain ⟨t, ht, hdbuf, hresult, -⟩ := exec_dec_of_empty hempty haccepts
  rw [hresidue] at hdbuf
  rw [hpayloads, resultOf, if_neg (by simp)] at hresult
  refine ⟨t, ht, hresult, hdbuf, fun hbad => ?_⟩
  have hnone : payloadsIn M = [] := List.filterMap_eq_nil_iff.2 hbad
  rw [hresult, hnone, List.nil_append]

/-! ## A stream cut into chunks -/

/-- Instance `i` accepts the chunks one after the other: each is short enough, and fits the capacity beside what the
chunks before it leave (`head` and `tail` tie it to `accepts`). -/
def State.AcceptsChunks (s : State) (i : Nat) (cs : List Bytes) : Prop :=
  hasInstance s.config.nDec i = true ∧ (∀ c ∈ cs, withinBound s.config.maxChunkIn c.length = true) ∧
    ∀ before c after, cs = before ++ c :: after →
      withinBound s.config.dbufCap
        ((residue ((s.decoder i).dbuf ++ before.flatten)).length + c.length) = true

theorem State.AcceptsChunks.head {s : State} {i : Nat} {c : Bytes} {cs : List Bytes} (h : s.AcceptsChunks i (c :: cs))
    (hbuffer : delim ∉ (s.decoder i).dbuf) : s.accepts i c.length := by
  obtain ⟨hinstance, hchunk, hcap⟩ := h
  have hfirst := hcap [] c cs rfl
  rw [List.flatten_nil, List.append_nil, residue_zeroFree hbuffer] at hfirst
  exact ⟨hinstance, hchunk c List.mem_cons_self, hfirst⟩

/-- After the first chunk the others are accepted. -/
theorem State.AcceptsChunks.tail {s t : State} {i : Nat} {c : Bytes} {cs : List Bytes}
    (h : s.AcceptsChunks i (c :: cs)) (hconfig : t.config = s.config)
    (hdbuf : (t.decoder i).dbuf = residue ((s.decoder i).dbuf ++ c)) : t.AcceptsChunks i cs := by
  obtain ⟨hinstance, hchunk, hcap⟩ := h
  rw [State.AcceptsChunks, hconfig, hdbuf]
  refine ⟨hinstance, fun c' hc' => hchunk c' (List.mem_cons_of_mem c hc'), ?_⟩
  rintro before c' after rfl
  have hturn := hcap (c :: before) c' after rfl
  rwa [List.flatten_cons, ← List.append_assoc, residue_append] at hturn

/-- Chunks whose stream fits the capacity beside the buffer fit it each at its turn. -/
theorem withinBound_residue_of_stream {cap : Option Nat} {B : Bytes} {before after : List Bytes} {c : Bytes}
    (h : withinBound cap (B.length + (before ++ c :: after).flatten.length) = true) :
    withinBound cap ((residue (B ++ before.flatten)).length + c.length) = true := by
  have hresidue := residue_length_le (B ++ before.flatten)
  simp only [List.flatten_append, List.flatten_cons, List.length_append] at h hresidue
  exact withinBound_mono (by omega) h

/-- Chunks accepted at their turns leave the decoder as their stream does, and nothing else changes. -/
theorem run_decChunks {cs : List Bytes} {s : State} {i : Nat} {rest : List Transfer}
    (hpending : s.pending = cs.map (.decWhole i) ++ rest) (haccepts : s.AcceptsChunks i cs)
    (hbuffer : delim ∉ (s.decoder i).dbuf) :
    ∃ t, Host.Core.run Sys2Proof.core cs.length s = .next t ∧ t.decoder i = ((s.decoder i).feed cs.flatten).1 ∧
      OnlyInstance i { s with pending := rest } t := by
  induction cs generalizing s with
  | nil =>
    obtain rfl : s.pending = rest := hpending
    exact ⟨s, rfl, (Decoder.feed_nil hbuffer).symm, fun _ _ => rfl, rfl, rfl, rfl⟩
  | cons c cs ih =>
    obtain ⟨t, ht, hdecoder, -, hothers, hencoder, hconfig, htpending⟩ :=
      exec_dec_of_accepts (s := { s with pending := cs.map (.decWhole i) ++ rest }) (haccepts.head hbuffer)
    have hfed : t.decoder i = ((s.decoder i).feed c).1 := by rw [hdecoder, Decoder.feed_eq]; rfl
    have hstep : step s = .next t := by
      rw [step_of_pending_cons (rest := cs.map (.decWhole i) ++ rest) hpending, decode, ht]
    obtain ⟨u, hu, hdecoderU, honlyU⟩ := ih htpending (haccepts.tail hconfig (by rw [hdecoder]; rfl))
      (by rw [hdecoder]; exact delim_not_mem_residue _)
    refine ⟨u, ?_, ?_, OnlyInstance.trans (t := { t with pending := rest }) ⟨hothers, hencoder, hconfig, rfl⟩ honlyU⟩
    · rw [List.length_cons, run_succ _ hstep, hu]
    · rw [hdecoderU, hfed, ← Decoder.feed_append, List.flatten_cons]

/-- Settles O21: the chunks are accepted at their turns, and leave what their stream leaves. -/
theorem fragmentationDoesNotMatter : Obligations.FragmentationDoesNotMatter := by
  intro s i cs rest hpending hinstance hchunk hcap hbuffer
  have haccepts : s.AcceptsChunks i cs := by
    refine ⟨hinstance, hchunk, ?_⟩
    rcases hcap with hstream | hturns
    · rintro before c after rfl
      exact withinBound_residue_of_stream hstream
    · exact hturns
  obtain ⟨t, ht, hdecoder, hothers, hencoder, -, hrest⟩ := run_decChunks hpending haccepts hbuffer
  rw [Decoder.feed_eq] at hdecoder
  exact ⟨t, ht, by rw [hdecoder], by rw [hdecoder]; rfl, hrest, hencoder, hothers⟩

end Sys2Proof.Machine
end

section
/-! Malformed spans (R151, R152, R154), and that no operation stops (R150). -/

namespace Sys2Proof.Machine

/-! ## The cause of a malformed span -/

theorem ne_delim_of_toNat_pos {L : Byte} (h : 0 < L.toNat) : L ≠ delim := by
  rintro rfl
  exact absurd h (by decide)

/-- At the code position where `R` is the rest of the body, the loop finds the span malformed for this cause, whatever
the output so far (`spanOutcome_of_leavesMalformed` ties it to the span's outcome). -/
def LeavesMalformed (rd : Reading) (cause : Malformed) (R : Bytes) : Prop :=
  ∀ n output, spanLoop rd (n + 1) (R ++ [delim]) output = .malformed cause

/-- Under reading A a block that ends beyond the delimiter is too short. -/
theorem leavesMalformed_short {L : Byte} {T : Bytes} (h : T.length + 2 < L.toNat) :
    LeavesMalformed .a .short (L :: T) := by
  intro n output
  have hL : L ≠ delim := ne_delim_of_toNat_pos (by omega)
  have hshort : tooShort .a ((T ++ [delim]).length + 1) L = true := by simpa [tooShort] using h
  rw [List.cons_append, spanLoop, if_neg hL, if_pos hshort]

/-- Under reading A a block whose last data position is the delimiter passes the length test and fails the data test. -/
theorem leavesMalformed_zeroInData {L : Byte} {T : Bytes} (h : T.length + 2 = L.toNat) :
    LeavesMalformed .a .zeroInData (L :: T) := by
  intro n output
  have hL : L ≠ delim := ne_delim_of_toNat_pos (by omega)
  have hlong : ¬ tooShort .a ((T ++ [delim]).length + 1) L = true := by simp [tooShort, h.ge]
  have hdata : (T ++ [delim]).take (L.toNat - 1) = T ++ [delim] :=
    List.take_of_length_le (by rw [List.length_append, List.length_singleton]; omega)
  rw [List.cons_append, spanLoop, if_neg hL, if_neg hlong, hdata, if_pos (by simp)]

/-- A block that fits, with more of the body behind it, takes the loop to the code position after it. -/
theorem spanLoop_block_append (rd : Reading) {L : Byte} {D M : Bytes} (h : Fits (L, D)) (hfree : delim ∉ L :: (D ++ M))
    (hne : M ≠ []) (n : Nat) (W output : Bytes) :
    spanLoop rd (n + 1) (L :: (D ++ M) ++ W) output = spanLoop rd n (M ++ W) (output ++ D ++ impliedZero L) := by
  obtain ⟨x, M, rfl⟩ := List.exists_cons_of_ne_nil hne
  obtain ⟨hL, hD, hx, -⟩ : delim ≠ L ∧ delim ∉ D ∧ delim ≠ x ∧ delim ∉ M := by simpa using hfree
  rw [List.cons_append, List.append_assoc, List.cons_append, spanLoop_block rd h hL.symm hD, if_neg hx.symm]

/-- The loop passes the blocks that fit and reaches the rest of the body, if it may make one pass for each of them. -/
theorem spanLoop_of_leavesMalformed {rd : Reading} {cause : Malformed} {R : Bytes} (hR : LeavesMalformed rd cause R)
    (hne : R ≠ []) {bs : List (Byte × Bytes)} (hbs : ∀ p ∈ bs, Fits p) (hfree : delim ∉ bytesOfBlocks bs ++ R) {n : Nat}
    (hn : (bytesOfBlocks bs).length ≤ n) (output : Bytes) :
    spanLoop rd (n + 1) (bytesOfBlocks bs ++ R ++ [delim]) output = .malformed cause := by
  induction bs generalizing n output with
  | nil => exact hR n output
  | cons p bs ih =>
    obtain ⟨hp, hbs⟩ := List.forall_mem_cons.1 hbs
    rw [bytesOfBlocks_cons, List.cons_append, List.append_assoc] at hfree ⊢
    rw [bytesOfBlocks_cons, List.length_cons, List.length_append] at hn
    obtain ⟨n, rfl⟩ : ∃ k, n = k + 1 := ⟨n - 1, by omega⟩
    rw [spanLoop_block_append rd hp hfree (by simp [hne])]
    exact ih hbs (fun hmem => hfree (List.mem_cons_of_mem _ (List.mem_append_right _ hmem))) (by omega) _

theorem spanOutcome_of_leavesMalformed {rd : Reading} {cause : Malformed} {R : Bytes} (hR : LeavesMalformed rd cause R)
    (hne : R ≠ []) {bs : List (Byte × Bytes)} (hbs : ∀ p ∈ bs, Fits p) (hfree : delim ∉ bytesOfBlocks bs ++ R) :
    spanOutcome rd (bytesOfBlocks bs ++ R ++ [delim]) = .malformed cause := by
  rw [spanOutcome, List.length_append, List.length_singleton]
  exact spanLoop_of_leavesMalformed hR hne hbs hfree (by simp) []

/-- Settles O18: the loop passes the blocks that fit, and at the first that does not one test decides. -/
theorem malformedSpanHasTheCauseOfItsFirstBadBlock :
    Obligations.MalformedSpanHasTheCauseOfItsFirstBadBlock := by
  refine ⟨rfl, ?_⟩
  rintro bs L T _ hbs rfl hfree
  exact ⟨fun h => spanOutcome_of_leavesMalformed (leavesMalformed_short h) (List.cons_ne_nil L T) hbs hfree,
    fun h => spanOutcome_of_leavesMalformed (leavesMalformed_zeroInData h) (List.cons_ne_nil L T) hbs hfree⟩

/-! ## A malformed span is removed -/

/-- A malformed span in front of a stream adds no payload. -/
theorem payloadsIn_malformed_append {N : Bytes} (hN : delim ∉ N) (hbad : decodeFrame (N ++ [delim]) = none)
    (X : Bytes) : payloadsIn (N ++ [delim] ++ X) = payloadsIn X := by
  rw [List.append_assoc, List.singleton_append, payloadsIn_append_delim hN, hbad, Option.toList_none, List.nil_append]

theorem residue_span_append {N : Bytes} (hN : delim ∉ N) (X : Bytes) : residue (N ++ [delim] ++ X) = residue X := by
  rw [residue_append, residue_of_span hN, List.nil_append]

/-- Settles O19: the malformed span contributes neither to the residue nor to the payloads of the stream. -/
theorem malformedSpanLeavesNoTrace : Obligations.MalformedSpanLeavesNoTrace := by
  intro s i c X hbuffer hc hbad haccepts
  have hN : delim ∉ (s.decoder i).dbuf ++ c := by simp [hbuffer, hc]
  have hstream : (s.decoder i).dbuf ++ (c ++ [delim] ++ X) = (s.decoder i).dbuf ++ c ++ [delim] ++ X := by simp
  obtain ⟨t, ht, hdecoderT, hresultT, -⟩ := exec_dec_of_accepts haccepts
  rw [hstream, payloadsIn_malformed_append hN hbad] at hdecoderT hresultT
  rw [residue_span_append hN] at hdecoderT
  have hemptied : (s.setDecoder i { s.decoder i with dbuf := [] }).decoder i = { s.decoder i with dbuf := [] } :=
    s.decoder_setDecoder_same i _
  have hrest : (s.setDecoder i { s.decoder i with dbuf := [] }).accepts i X.length :=
    State.accepts_of_residue haccepts rfl (by rw [hemptied, ← List.append_assoc, residue_of_span hN])
  obtain ⟨u, hu, hdbufU, hresultU, hdeliveredU⟩ := exec_dec_of_empty (by rw [hemptied]) hrest
  rw [hemptied] at hdeliveredU
  exact ⟨t, u, ht, hu, by rw [hdecoderT, hdbufU], by rw [hresultT, hresultU], by rw [hdecoderT, hdeliveredU]⟩

/-! ## No operation stops -/

/-- With the default parameters every operation is accepted. -/
theorem acceptsInstr_of_unbounded {s : State} (h : s.config = Config.unbounded) (x : Instr) : s.acceptsInstr x := by
  have hfeed (i n : Nat) : s.accepts i n := by
    rw [State.accepts, h]
    exact ⟨rfl, rfl, rfl⟩
  cases x with
  | enc P => exact congrArg (withinBound ·.maxPayload P.length) h
  | encEnd | encPushZ | encPushNZ => trivial
  | rst i => exact congrArg (hasInstance ·.nDec i) h
  | dec | decByteDelim | decByteBody | term | len1 | len255 | lenN | data => exact hfeed _ _

/-- A step is refused for nothing but a parameter. -/
theorem step_refused_beyondParameter {s : State} {r : Refusal} (h : step s = .refused r) : r.beyondParameter := by
  cases hpending : s.pending with
  | nil =>
    rw [step_of_pending_nil hpending] at h
    cases h
  | cons w rest =>
    rw [step_of_pending_cons hpending] at h
    exact exec_refused_beyondParameter h

/-- With the default parameters a step has a next state, with the same parameters. -/
theorem step_next_of_unbounded {s : State} (h : s.config = Config.unbounded) :
    ∃ t, step s = .next t ∧ t.config = Config.unbounded := by
  cases hpending : s.pending with
  | nil => exact ⟨s, step_of_pending_nil hpending, h⟩
  | cons w rest =>
    obtain ⟨t, ht⟩ := exec_next_of_acceptsInstr (s := { s with pending := rest }) (acceptsInstr_of_unbounded h (decode w))
    exact ⟨t, (step_of_pending_cons hpending).trans ht, (exec_next_config_pending ht).1.trans h⟩

/-- Settles O39: there is no fault to answer, and a refusal names a parameter, which the default does not bound. -/
theorem noOperationEverStops : Obligations.NoOperationEverStops :=
  ⟨fun _ => nofun, fun _ _ => step_refused_beyondParameter, fun _ => step_next_of_unbounded⟩

end Sys2Proof.Machine
end

section
/-! What the byte-serial encoder holds back between beats, and how much one beat emits (R111, R182). -/

namespace Sys2Proof.Machine

/-- Closing a segment emits the bytes held back and at most a code byte. -/
theorem Encoder.length_closeSegment_le (e : Encoder) : e.closeSegment.1.length ≤ e.run.length + 1 := by
  rcases e.closeSegment_bytes with ⟨-, hbytes⟩ | ⟨-, -, hbytes⟩ | ⟨-, -, hbytes⟩ <;> rw [hbytes]
  · exact (List.length_cons ..).le
  · exact Nat.le_add_left _ _
  · exact Nat.zero_le _

/-- A pushed byte adds itself to the bytes held back before they are emitted, or nothing. -/
theorem Encoder.length_push_le (e : Encoder) (b : Byte) : (e.push b).1.length ≤ e.run.length + 2 := by
  rcases e.push_cases b with ⟨-, hpush⟩ | ⟨-, -, hpush⟩ | ⟨-, -, hpush⟩ <;> rw [hpush]
  · exact e.length_closeSegment_le.trans (Nat.le_succ _)
  · simp
  · exact Nat.zero_le _

theorem Encoder.length_finish_le (e : Encoder) : e.finish.1.length ≤ e.run.length + 2 := by
  simpa [Encoder.finish] using e.length_closeSegment_le

/-- Settles O12: a beat keeps the encoder's invariant, and emits at most two bytes beyond the 253 it held back. -/
theorem encoderHoldsBackAtMost253Bytes : Obligations.EncoderHoldsBackAtMost253Bytes := by
  intro s t x hs hx h
  obtain ⟨-, hheld⟩ := Encoder.invariant_iff.1 hs
  have hbeat {r : Bytes × Encoder} (hinvariant : r.2.invariant = true) (hlength : r.1.length ≤ s.encoder.run.length + 2)
      (ht : exec x s = .next (s.finishBeat r)) :
      t.encoder.run.length ≤ 253 ∧ ∃ E : Bytes, t.result = .emitted E ∧ E.length ≤ 255 := by
    cases h.symm.trans ht
    exact ⟨(Encoder.invariant_iff.1 hinvariant).2, r.1, rfl, by omega⟩
  have hpush (b : Byte) := hbeat (Encoder.invariant_push hs b) (s.encoder.length_push_le b)
  rcases hx with rfl | rfl | ⟨b, rfl, -⟩
  · exact hbeat s.encoder.invariant_finish s.encoder.length_finish_le rfl
  · exact hpush delim rfl
  · exact hpush b rfl

end Sys2Proof.Machine
end
